-- ==== Sys2Proof/Word.lean ====
section
/-! DEFINITION. The word types of the machine (00_scope.md R7, R9): every value is unsigned. -/

namespace Sys2Proof

/-- An 8-bit value: a register, a timer, a memory byte, an immediate KK (V_WIDTH, TIMER_WIDTH). -/
abbrev Byte := BitVec 8

/-- A 16-bit value: pc, I, a stack entry, an instruction word (PC_WIDTH, I_WIDTH, INSN_WIDTH). -/
abbrev Word := BitVec 16

/-- A 12-bit address or immediate NNN (30_encoding.md R91). -/
abbrev Addr12 := BitVec 12

end Sys2Proof
end

