-- ==== Sys2Proof/Syntax.lean ====
section
/-! DEFINITION. The 34 instructions (00_scope.md R3, 30_encoding.md R96), one constructor per row of the opcode table. -/

namespace Sys2Proof

/-- A register selector: "every 4-bit value names a register" (10_state.md R21, 30_encoding.md R93). -/
abbrev Reg := Fin 16

/-- V0, the register BNNN adds (41_control_flow.md R157). -/
abbrev V0 : Reg := 0

/-- VF, the flag register (10_state.md R22). -/
abbrev VF : Reg := 15

/-- An instruction with its operands: `x`, `y` registers, `kk` the byte, `nnn` the address, `n` the sprite height
(30_encoding.md R91, R92). Bits an instruction ignores (R99) are no operands. -/
inductive Instr where
  /-- 0x_E0, R240. -/
  | cls
  /-- 0x_EE, R150. -/
  | ret
  /-- 1NNN, R151. -/
  | jp (nnn : Addr12)
  /-- 2NNN, R152. -/
  | call (nnn : Addr12)
  /-- 3XKK, R153. -/
  | seImm (x : Reg) (kk : Byte)
  /-- 4XKK, R154. -/
  | sneImm (x : Reg) (kk : Byte)
  /-- 5XY_, R155. -/
  | seReg (x y : Reg)
  /-- 6XKK, R180. -/
  | ldImm (x : Reg) (kk : Byte)
  /-- 7XKK, R181. -/
  | addImm (x : Reg) (kk : Byte)
  /-- 8XY0, R182. -/
  | ldReg (x y : Reg)
  /-- 8XY1, R183. -/
  | or (x y : Reg)
  /-- 8XY2, R184. -/
  | and (x y : Reg)
  /-- 8XY3, R185. -/
  | xor (x y : Reg)
  /-- 8XY4, R186. -/
  | addReg (x y : Reg)
  /-- 8XY5, R187. -/
  | sub (x y : Reg)
  /-- 8XY6, R188; Y is ignored. -/
  | shr (x : Reg)
  /-- 8XY7, R189. -/
  | subn (x y : Reg)
  /-- 8XYE, R190; Y is ignored. -/
  | shl (x : Reg)
  /-- 9XY_, R156. -/
  | sneReg (x y : Reg)
  /-- ANNN, R210. -/
  | ldI (nnn : Addr12)
  /-- BNNN, R157. -/
  | jpV0 (nnn : Addr12)
  /-- CXKK, R260. -/
  | rnd (x : Reg) (kk : Byte)
  /-- DXYN, R241. -/
  | drw (x y : Reg) (n : Fin 16)
  /-- EX9E, R261. -/
  | skp (x : Reg)
  /-- EXA1, R262. -/
  | sknp (x : Reg)
  /-- FX07, R263. -/
  | ldVDT (x : Reg)
  /-- FX0A, R264. -/
  | ldK (x : Reg)
  /-- FX15, R265. -/
  | ldDT (x : Reg)
  /-- FX18, R266. -/
  | ldST (x : Reg)
  /-- FX1E, R211. -/
  | addI (x : Reg)
  /-- FX29, R212. -/
  | ldF (x : Reg)
  /-- FX33, R213. -/
  | ldB (x : Reg)
  /-- FX55, R214. -/
  | ldMI (x : Reg)
  /-- FX65, R215. -/
  | ldVI (x : Reg)
  deriving DecidableEq, Repr

end Sys2Proof
end

