-- ==== Sys2Proof/WellFormed.lean ====
section
/-! DEFINITION. Well-formedness. Each operand of an instruction is given with the bit field the opcode table gives it
(spec/opcode_table.json "fields"; 30_encoding.md R91, R92); it is well formed if its value fits that field. Instr's
operand types hold no other value (30_encoding.md R93: "All 16 values are legal, so no encoding names a missing
register"), so every term of Instr is well formed (Laws.Encoding.wellFormed); the check itself is over raw operands. A ROM
image is well formed if it fits above 512 (70_reset_and_hazards.md R332, R333). -/

namespace Sys2Proof

/-- A raw operand: its field's name and bits in the instruction word, and its value. -/
structure Operand where
  name  : String
  hi    : Nat
  lo    : Nat
  value : Nat
  deriving DecidableEq, Repr

/-- The value fits the field's bits, and the field lies in the 16-bit word. -/
def Operand.wellFormed (o : Operand) : Bool :=
  o.lo ≤ o.hi && o.hi < 16 && o.value < 2 ^ (o.hi + 1 - o.lo)

/-- Field X, op[11:8]. -/
def Operand.x (x : Reg) : Operand := ⟨"X", 11, 8, x.val⟩
/-- Field Y, op[7:4]. -/
def Operand.y (y : Reg) : Operand := ⟨"Y", 7, 4, y.val⟩
/-- Field KK, op[7:0]. -/
def Operand.kk (kk : Byte) : Operand := ⟨"KK", 7, 0, kk.toNat⟩
/-- Field NNN, op[11:0]. -/
def Operand.nnn (nnn : Addr12) : Operand := ⟨"NNN", 11, 0, nnn.toNat⟩
/-- Field N, op[3:0]. -/
def Operand.n (n : Fin 16) : Operand := ⟨"N", 3, 0, n.val⟩

/-- The operands of an instruction, with the fields of its row of the opcode table. -/
def Instr.operands : Instr → List Operand
  | .cls | .ret => []
  | .jp nnn | .call nnn | .ldI nnn | .jpV0 nnn => [.nnn nnn]
  | .seImm x kk | .sneImm x kk | .ldImm x kk | .addImm x kk | .rnd x kk => [.x x, .kk kk]
  | .seReg x y | .sneReg x y | .ldReg x y | .or x y | .and x y | .xor x y | .addReg x y | .sub x y | .subn x y =>
      [.x x, .y y]
  | .drw x y n => [.x x, .y y, .n n]
  | .shr x | .shl x | .skp x | .sknp x | .ldVDT x | .ldK x | .ldDT x | .ldST x | .addI x | .ldF x | .ldB x | .ldMI x
  | .ldVI x => [.x x]

/-- Every operand fits its field. -/
def Instr.wellFormed (i : Instr) : Bool := i.operands.all Operand.wellFormed

/-- A ROM of at most 3584 bytes, the host's duty (70_reset_and_hazards.md R333). -/
def romWellFormed (rom : List Byte) : Bool := rom.length ≤ 3584

end Sys2Proof
end

