-- ==== Sys2Proof/Decode.lean ====
section
/-! DEFINITION. Instruction words: byte order, operand fields, the two-level decoder (30_encoding.md R90 to R99), the opcode
map (R96), and the encoder. The decoder is total and reads nothing but the word. -/

namespace Sys2Proof

/-- The decoder's one rejection (30_encoding.md R97): `UnknownOpcode`, carrying the raw word. -/
inductive Reject where
  | unknownOpcode (code : Word)
  deriving DecidableEq, Repr

/-! ### Bytes of a word: big-endian, high byte first (20_memory.md R62, 30_encoding.md R90) -/

/-- `(hi << 8) | lo`. -/
def wordOfBytes (hi lo : Byte) : Word := (hi.setWidth 16 <<< 8) ||| lo.setWidth 16

/-- The byte at the lower address. -/
def hiByte (w : Word) : Byte := w.extractLsb' 8 8

/-- The byte at the higher address. -/
def loByte (w : Word) : Byte := w.extractLsb' 0 8

/-! ### Operand fields (30_encoding.md R91) -/

/-- F = op[15:12]. -/
def fieldF (op : Word) : Fin 16 := (op.extractLsb' 12 4).toFin
/-- X = op[11:8]. -/
def fieldX (op : Word) : Reg := (op.extractLsb' 8 4).toFin
/-- Y = op[7:4]. -/
def fieldY (op : Word) : Reg := (op.extractLsb' 4 4).toFin
/-- N = op[3:0]. -/
def fieldN (op : Word) : Fin 16 := (op.extractLsb' 0 4).toFin
/-- KK = op[7:0]. -/
def fieldKK (op : Word) : Byte := op.extractLsb' 0 8
/-- NNN = op[11:0]. -/
def fieldNNN (op : Word) : Addr12 := op.extractLsb' 0 12

/-! ### The decoder: dispatch on the top nibble, then a second level in families 0, 8, E and F (30_encoding.md R95) -/

/-- Family 0: the low byte decides and op[11:8] is ignored (R95, R99, D2, D4; log 2, log 3). -/
def decodeFamily0 (op : Word) : Except Reject Instr :=
  match (fieldKK op).toNat with
  | 0xE0 => .ok .cls
  | 0xEE => .ok .ret
  | _ => .error (.unknownOpcode op)

/-- Family 8: the low nibble decides (R95); the shifts ignore Y (R99). -/
def decodeFamily8 (op : Word) : Except Reject Instr :=
  match (fieldN op).val with
  | 0x0 => .ok (.ldReg (fieldX op) (fieldY op))
  | 0x1 => .ok (.or (fieldX op) (fieldY op))
  | 0x2 => .ok (.and (fieldX op) (fieldY op))
  | 0x3 => .ok (.xor (fieldX op) (fieldY op))
  | 0x4 => .ok (.addReg (fieldX op) (fieldY op))
  | 0x5 => .ok (.sub (fieldX op) (fieldY op))
  | 0x6 => .ok (.shr (fieldX op))
  | 0x7 => .ok (.subn (fieldX op) (fieldY op))
  | 0xE => .ok (.shl (fieldX op))
  | _ => .error (.unknownOpcode op)

/-- Family E: the low byte decides (R95). -/
def decodeFamilyE (op : Word) : Except Reject Instr :=
  match (fieldKK op).toNat with
  | 0x9E => .ok (.skp (fieldX op))
  | 0xA1 => .ok (.sknp (fieldX op))
  | _ => .error (.unknownOpcode op)

/-- Family F: the low byte decides (R95). -/
def decodeFamilyF (op : Word) : Except Reject Instr :=
  match (fieldKK op).toNat with
  | 0x07 => .ok (.ldVDT (fieldX op))
  | 0x0A => .ok (.ldK (fieldX op))
  | 0x15 => .ok (.ldDT (fieldX op))
  | 0x18 => .ok (.ldST (fieldX op))
  | 0x1E => .ok (.addI (fieldX op))
  | 0x29 => .ok (.ldF (fieldX op))
  | 0x33 => .ok (.ldB (fieldX op))
  | 0x55 => .ok (.ldMI (fieldX op))
  | 0x65 => .ok (.ldVI (fieldX op))
  | _ => .error (.unknownOpcode op)

/-- Decode a word (30_encoding.md R95, R96; in families 5 and 9 op[3:0] is not checked, D3). The bit patterns are the
conventional CHIP-8 map, PRESUMED by the spec itself (93_implementation_defined.md G1; unsafe, log 1). -/
def decode (op : Word) : Except Reject Instr :=
  match (fieldF op).val with
  | 0x0 => decodeFamily0 op
  | 0x1 => .ok (.jp (fieldNNN op))
  | 0x2 => .ok (.call (fieldNNN op))
  | 0x3 => .ok (.seImm (fieldX op) (fieldKK op))
  | 0x4 => .ok (.sneImm (fieldX op) (fieldKK op))
  | 0x5 => .ok (.seReg (fieldX op) (fieldY op))
  | 0x6 => .ok (.ldImm (fieldX op) (fieldKK op))
  | 0x7 => .ok (.addImm (fieldX op) (fieldKK op))
  | 0x8 => decodeFamily8 op
  | 0x9 => .ok (.sneReg (fieldX op) (fieldY op))
  | 0xA => .ok (.ldI (fieldNNN op))
  | 0xB => .ok (.jpV0 (fieldNNN op))
  | 0xC => .ok (.rnd (fieldX op) (fieldKK op))
  | 0xD => .ok (.drw (fieldX op) (fieldY op) (fieldN op))
  | 0xE => decodeFamilyE op
  | 0xF => decodeFamilyF op
  | _ => .error (.unknownOpcode op)  -- no fifth bit: not reached

/-- Decode the two bytes of an instruction, the one at pc first (30_encoding.md R90). -/
def decodeBytes (hi lo : Byte) : Except Reject Instr := decode (wordOfBytes hi lo)

/-- The host's reading of a table word of `nbits` bits: its bytes laid out high byte first and given to the decoder. -/
def decodeTableWord (nbits w : Nat) : Option Instr :=
  match decodeBytes (hiByte (BitVec.ofNat 16 (w % 2 ^ nbits))) (loByte (BitVec.ofNat 16 (w % 2 ^ nbits))) with
  | .ok i => some i
  | .error _ => none

/-! ### The encoder (30_encoding.md R92, R96): ignored bits are written 0, as R100 has the assembler do for SHR and SHL -/

/-- A nibble as a word. -/
def nibble (n : Fin 16) : Word := BitVec.setWidth 16 (BitVec.ofFin n : BitVec 4)
/-- Format A: F in 15..12, NNN in 11..0. -/
def formatA (f : Fin 16) (nnn : Addr12) : Word := (nibble f <<< 12) ||| nnn.setWidth 16
/-- Format XKK: F in 15..12, X in 11..8, KK in 7..0. -/
def formatXKK (f : Fin 16) (x : Reg) (kk : Byte) : Word := (nibble f <<< 12) ||| (nibble x <<< 8) ||| kk.setWidth 16
/-- Formats XY, XYS and XYN: F in 15..12, X in 11..8, Y in 7..4, the low nibble in 3..0. -/
def formatXYN (f : Fin 16) (x y : Reg) (n : Fin 16) : Word :=
  (nibble f <<< 12) ||| (nibble x <<< 8) ||| (nibble y <<< 4) ||| nibble n

/-- The word of an instruction. Formats Z and XS are XKK with a fixed low byte. -/
def encode : Instr → Word
  | .cls        => formatXKK 0x0 0 0xE0
  | .ret        => formatXKK 0x0 0 0xEE
  | .jp nnn     => formatA 0x1 nnn
  | .call nnn   => formatA 0x2 nnn
  | .seImm x kk => formatXKK 0x3 x kk
  | .sneImm x kk => formatXKK 0x4 x kk
  | .seReg x y  => formatXYN 0x5 x y 0
  | .ldImm x kk => formatXKK 0x6 x kk
  | .addImm x kk => formatXKK 0x7 x kk
  | .ldReg x y  => formatXYN 0x8 x y 0x0
  | .or x y     => formatXYN 0x8 x y 0x1
  | .and x y    => formatXYN 0x8 x y 0x2
  | .xor x y    => formatXYN 0x8 x y 0x3
  | .addReg x y => formatXYN 0x8 x y 0x4
  | .sub x y    => formatXYN 0x8 x y 0x5
  | .shr x      => formatXYN 0x8 x 0 0x6
  | .subn x y   => formatXYN 0x8 x y 0x7
  | .shl x      => formatXYN 0x8 x 0 0xE
  | .sneReg x y => formatXYN 0x9 x y 0
  | .ldI nnn    => formatA 0xA nnn
  | .jpV0 nnn   => formatA 0xB nnn
  | .rnd x kk   => formatXKK 0xC x kk
  | .drw x y n  => formatXYN 0xD x y n
  | .skp x      => formatXKK 0xE x 0x9E
  | .sknp x     => formatXKK 0xE x 0xA1
  | .ldVDT x    => formatXKK 0xF x 0x07
  | .ldK x      => formatXKK 0xF x 0x0A
  | .ldDT x     => formatXKK 0xF x 0x15
  | .ldST x     => formatXKK 0xF x 0x18
  | .addI x     => formatXKK 0xF x 0x1E
  | .ldF x      => formatXKK 0xF x 0x29
  | .ldB x      => formatXKK 0xF x 0x33
  | .ldMI x     => formatXKK 0xF x 0x55
  | .ldVI x     => formatXKK 0xF x 0x65

/-! ### The opcode map (30_encoding.md R96) -/

/-- A row of R96: a word `w` selects the row with `w &&& mask = pattern`. -/
structure OpcodeRow where
  mnemonic : String
  mask     : Word
  pattern  : Word
  deriving DecidableEq, Repr

/-- The row of R96 an instruction belongs to. -/
def Instr.row : Instr → OpcodeRow
  | .cls        => ⟨"CLS",     0xF0FF, 0x00E0⟩
  | .ret        => ⟨"RET",     0xF0FF, 0x00EE⟩
  | .jp _       => ⟨"JP",      0xF000, 0x1000⟩
  | .call _     => ⟨"CALL",    0xF000, 0x2000⟩
  | .seImm _ _  => ⟨"SE_IMM",  0xF000, 0x3000⟩
  | .sneImm _ _ => ⟨"SNE_IMM", 0xF000, 0x4000⟩
  | .seReg _ _  => ⟨"SE_REG",  0xF000, 0x5000⟩
  | .ldImm _ _  => ⟨"LD_IMM",  0xF000, 0x6000⟩
  | .addImm _ _ => ⟨"ADD_IMM", 0xF000, 0x7000⟩
  | .ldReg _ _  => ⟨"LD_REG",  0xF00F, 0x8000⟩
  | .or _ _     => ⟨"OR",      0xF00F, 0x8001⟩
  | .and _ _    => ⟨"AND",     0xF00F, 0x8002⟩
  | .xor _ _    => ⟨"XOR",     0xF00F, 0x8003⟩
  | .addReg _ _ => ⟨"ADD_REG", 0xF00F, 0x8004⟩
  | .sub _ _    => ⟨"SUB",     0xF00F, 0x8005⟩
  | .shr _      => ⟨"SHR",     0xF00F, 0x8006⟩
  | .subn _ _   => ⟨"SUBN",    0xF00F, 0x8007⟩
  | .shl _      => ⟨"SHL",     0xF00F, 0x800E⟩
  | .sneReg _ _ => ⟨"SNE_REG", 0xF000, 0x9000⟩
  | .ldI _      => ⟨"LD_I",    0xF000, 0xA000⟩
  | .jpV0 _     => ⟨"JP_V0",   0xF000, 0xB000⟩
  | .rnd _ _    => ⟨"RND",     0xF000, 0xC000⟩
  | .drw _ _ _  => ⟨"DRW",     0xF000, 0xD000⟩
  | .skp _      => ⟨"SKP",     0xF0FF, 0xE09E⟩
  | .sknp _     => ⟨"SKNP",    0xF0FF, 0xE0A1⟩
  | .ldVDT _    => ⟨"LD_VDT",  0xF0FF, 0xF007⟩
  | .ldK _      => ⟨"LD_K",    0xF0FF, 0xF00A⟩
  | .ldDT _     => ⟨"LD_DT",   0xF0FF, 0xF015⟩
  | .ldST _     => ⟨"LD_ST",   0xF0FF, 0xF018⟩
  | .addI _     => ⟨"ADD_I",   0xF0FF, 0xF01E⟩
  | .ldF _      => ⟨"LD_F",    0xF0FF, 0xF029⟩
  | .ldB _      => ⟨"LD_B",    0xF0FF, 0xF033⟩
  | .ldMI _     => ⟨"LD_MI",   0xF0FF, 0xF055⟩
  | .ldVI _     => ⟨"LD_VI",   0xF0FF, 0xF065⟩

/-- One instruction of each row, in the table's order, every operand 0. -/
def oneOfEachRow : List Instr :=
  [.cls, .ret, .jp 0, .call 0, .seImm 0 0, .sneImm 0 0, .seReg 0 0, .ldImm 0 0, .addImm 0 0] ++
  [.ldReg 0 0, .or 0 0, .and 0 0, .xor 0 0, .addReg 0 0, .sub 0 0, .shr 0, .subn 0 0, .shl 0] ++
  [.sneReg 0 0, .ldI 0, .jpV0 0, .rnd 0 0, .drw 0 0 0, .skp 0, .sknp 0] ++
  [.ldVDT 0, .ldK 0, .ldDT 0, .ldST 0, .addI 0, .ldF 0, .ldB 0, .ldMI 0, .ldVI 0]

/-- The 34 rows of R96. -/
def opcodeMap : List OpcodeRow := oneOfEachRow.map Instr.row

/-- The bits of a word an instruction depends on: all but the ignored ones of 30_encoding.md R99. -/
def Instr.usedBits : Instr → Word
  | .cls | .ret => 0xF0FF
  | .seReg _ _ | .sneReg _ _ => 0xFFF0
  | .shr _ | .shl _ => 0xFF0F
  | .jp _ | .call _ | .seImm _ _ | .sneImm _ _ | .ldImm _ _ | .addImm _ _ | .ldReg _ _ | .or _ _ | .and _ _ | .xor _ _
  | .addReg _ _ | .sub _ _ | .subn _ _ | .ldI _ | .jpV0 _ | .rnd _ _ | .drw _ _ _ | .skp _ | .sknp _ | .ldVDT _ | .ldK _
  | .ldDT _ | .ldST _ | .addI _ | .ldF _ | .ldB _ | .ldMI _ | .ldVI _ => 0xFFFF

end Sys2Proof
end

