-- ==== Sys2Proof/Config.lean ====
section
/-! DEFINITION. What an implementation fixes (00_scope.md R7: the OPEN parameters) and the free values. -/

namespace Sys2Proof

/-- WAIT_KEY_VX: what FX0A does to V[X] when a key ends the wait (45_input_timers_random.md R264, D13). -/
inductive WaitKeyVx where
  | unchanged
  | lowestPressed
  | draw
  deriving DecidableEq, Repr

/-- The OPEN parameters of 00_scope.md R7, each "a named parameter that the model takes as an argument". The model holds
one value of this type in State (DESIGN CHOICE, safe, log 9), so a statement about every state is about every parameter. -/
structure Config where
  /-- FONT: the 80 font bytes (D16). -/
  font            : Vector Byte 80
  /-- STACK_DEPTH: `none` is `unbounded` (D10). -/
  stackDepth      : Option Nat
  /-- WAIT_KEY_VX (D13). -/
  waitKeyVx       : WaitKeyVx
  /-- FONT_STORE_FAULTS (D17). -/
  fontStoreFaults : Bool
  deriving DecidableEq, Repr

/-- FREE VALUE: the random byte of a cycle whose inputs State does not list (10_state.md R35, D14; log 10). -/
opaque Config.freeRand : Nat → Byte

/-- FREE VALUE: the keypad snapshot of a cycle whose inputs State does not list (10_state.md R34; log 10). -/
opaque Config.freeKeypad : Nat → Vector Bool 16

/-- FREE VALUE: the byte FX0A writes under WAIT_KEY_VX = draw (45_input_timers_random.md R264: "any 8-bit value"; log 7). -/
opaque Config.freeWaitKey : Nat → Byte

/-- FREE VALUE: the text of a trace entry (40_cycle_driver.md R128: "The entry's content is opaque"; log 11). -/
opaque Config.freeTraceLine : Nat → String

end Sys2Proof
end

