-- ==== Sys2Proof/Machine/Parameters.lean ====
section
/-! DEFINITION. The fixed parameters of 00_scope.md R7, and the values State.reset gives the OPEN ones. -/

namespace Sys2Proof.Machine

/-- MEM_SIZE: addresses 0 to 4095. -/
abbrev memSize : Nat := 4096
/-- PROGRAM_START: where the ROM lies and where reset sets pc (70_reset_and_hazards.md R331, R332). -/
abbrev programStart : Nat := 0x200
/-- FONT_SIZE: the font table is bytes 0 to 79 (FONT_BASE = 0). -/
abbrev fontSize : Nat := 80
/-- GLYPH_SIZE. -/
abbrev glyphSize : Nat := 5
/-- FONT_DIGIT_LIMIT: FX29 accepts digits below it. -/
abbrev fontDigitLimit : Nat := 9
/-- TRACE_DEPTH. -/
abbrev traceDepth : Nat := 51
/-- FB_WIDTH. -/
abbrev fbWidth : Nat := 64
/-- FB_CELLS = FB_WIDTH * FB_HEIGHT = 64 * 32. -/
abbrev fbCells : Nat := 2048

/-- The conventional glyphs 0 to 7 (93_implementation_defined.md G2). -/
def glyphs0to7 : Vector Byte 40 :=
  #v[0xF0, 0x90, 0x90, 0x90, 0xF0,  0x20, 0x60, 0x20, 0x20, 0x70,  0xF0, 0x10, 0xF0, 0x80, 0xF0,  0xF0, 0x10, 0xF0, 0x10, 0xF0,
     0x90, 0x90, 0xF0, 0x10, 0x10,  0xF0, 0x80, 0xF0, 0x10, 0xF0,  0xF0, 0x80, 0xF0, 0x90, 0xF0,  0xF0, 0x10, 0x20, 0x40, 0x40]

/-- The conventional glyphs 8 to F (93_implementation_defined.md G2). -/
def glyphs8toF : Vector Byte 40 :=
  #v[0xF0, 0x90, 0xF0, 0x90, 0xF0,  0xF0, 0x90, 0xF0, 0x10, 0xF0,  0xF0, 0x90, 0xF0, 0x90, 0x90,  0xE0, 0x90, 0xE0, 0x90, 0xE0,
     0xF0, 0x80, 0x80, 0x80, 0xF0,  0xE0, 0x90, 0x90, 0x90, 0xE0,  0xF0, 0x80, 0xF0, 0x80, 0xF0,  0xF0, 0x80, 0xF0, 0x80, 0x80]

/-- The font State.reset takes. PRESUMED: the spec leaves FONT open (D16) and gives these bytes as the convention only
(G2). Unsafe for a claim about a glyph's bytes: state claims for every `config.font` (log 5). -/
def conventionalFont : Vector Byte 80 := glyphs0to7 ++ glyphs8toF

/-- The parameters State.reset takes: the spec's defaults (00_scope.md R7) and the conventional font (log 5 to log 8). -/
def defaultConfig : Config where
  font            := conventionalFont
  stackDepth      := none
  waitKeyVx       := .unchanged
  fontStoreFaults := false

end Sys2Proof.Machine
end

