-- ==== Sys2Proof/Machine/State.lean ====
section
/-! DEFINITION. The state of the core (10_state.md R20), its reset value (R39), and the reasons a cycle stops. Plain data. -/

namespace Sys2Proof.Machine

/-- Memory as a list of (address, byte) with addresses strictly rising and no entry equal to the byte an unlisted address
reads as (`Memory.wf`, Machine/Ops.lean). -/
abbrev Memory := List Host.Cell

/-- The framebuffer: 2048 one-bit cells, row-major, as 32 rows (top row first) of 64 bits, column x at bit x
(10_state.md R30; DESIGN CHOICE of layout, safe, log 19). -/
abbrev Framebuffer := Vector (BitVec 64) 32

/-- The inputs of one cycle: the keypad snapshot, entry k `true` when key k is pressed (10_state.md R34, D26), and the random
byte (R35). -/
structure CycleInput where
  keypad : Vector Bool 16
  rand   : Byte
  deriving DecidableEq, Repr

/-- Why a cycle fails (60_exceptions.md R300). A faulted cycle has no next state: the failure is terminal for the run
(60_exceptions.md R304, D20). Where the reference would go on, stopping is safe (log 14). -/
inductive Fault where
  /-- Raised by the decoder on an unlisted word, and by FX29 on a digit of 9 or more; carries the opcode word. The spec's own
  failure (R97, R212); safe. -/
  | unknownOpcode (code : Word)
  /-- Raised by 00EE on an empty stack. The spec's own failure (R150); safe. -/
  | stackUnderflow
  /-- Raised by a fetch or a data access above 4095, and under FONT_STORE_FAULTS by a store to 0..79; carries the lowest such
  address (D28). The spec's own failure (R61, R67); safe. -/
  | addressOutOfRange (addr : Nat)
  /-- Raised by EX9E and EXA1 when V[X] > 15; carries V[X]. The spec's own decision (D12); safe. -/
  | keyIndexOutOfRange (v : Byte)
  /-- Raised by 2NNN when STACK_DEPTH is finite and reached. The spec's own decision (D10); safe. -/
  | stackOverflow
  deriving DecidableEq, Repr

/-- Why the model has no answer. -/
inductive Refusal where
  /-- Raised by no arm of exec: every instruction has its meaning. Safe. -/
  | notModelled (mnemonic : String)
  deriving DecidableEq, Repr

/-- The state record of 10_state.md R20, with the spec's field names, the OPEN parameters (log 9), and the model's own
`inputs` and `draws` (log 10). -/
structure State where
  /-- Memory, 4096 bytes (R31). -/
  M      : Memory
  /-- V0 to VF (R21). -/
  V      : Vector Byte 16
  /-- The index register (R24). -/
  I      : Word
  /-- The program counter (R25). -/
  pc     : Word
  /-- The call stack, top at the end (R27; 00_scope.md R10). -/
  stack  : List Word
  /-- The delay timer (R29). -/
  DT     : Byte
  /-- The sound timer (R29). -/
  ST     : Byte
  /-- The framebuffer (R30). -/
  fb     : Framebuffer
  /-- The opcode register (R33): during a cycle the fetched word, after it the word the cycle returned (log 21). -/
  op     : Word
  /-- The debug trace, oldest entry first (R36). -/
  trace  : List String
  /-- The diagnostics toggle (R36). -/
  diag   : Bool
  /-- The OPEN parameters (00_scope.md R7); no step changes them. -/
  config : Config
  /-- The model's own: the inputs of the coming cycles, the next cycle's first. -/
  inputs : List CycleInput
  /-- The model's own: how many cycles have drawn free values. -/
  draws  : Nat
  deriving DecidableEq, Repr

/-- The state right after creation with an empty ROM (10_state.md R39, 70_reset_and_hazards.md R330): all fields zeroed, the
font in 0..79 (unlisted bytes read it), pc at 0x200. `diag` is DESIGN CHOICE false (log 12); `config` is log 5 to log 8;
`inputs` and `draws` are DESIGN CHOICE (log 10). A program comes from `create` (Machine/Boot.lean) or `withFetchWord`. -/
def State.reset : State where
  M      := []
  V      := Vector.replicate 16 0
  I      := 0
  pc     := BitVec.ofNat 16 programStart
  stack  := []
  DT     := 0
  ST     := 0
  fb     := Vector.replicate 32 0
  op     := 0
  trace  := []
  diag   := false
  config := defaultConfig
  inputs := []
  draws  := 0

end Sys2Proof.Machine
end

