-- ==== Sys2Proof/Machine/Ops.lean ====
section
/-! DEFINITION. The named operations over memory, registers, the framebuffer, the inputs and the pc, raising a failure, and
the two ends of a cycle (fetch; timers and trace). -/

namespace Sys2Proof.Machine

/-! ### Failures -/

/-- `raise F(info)` (00_scope.md R12): the cycle ends with failure F and no state change is kept, since a fault has no next
state (40_cycle_driver.md R127). This is all there is to taking an exception on this hardware: "A failure does not transfer
control. There is no vector, no handler address, no saved-pc register and no cause register" (60_exceptions.md R303), and
there is no return from one (R304). -/
def raise (f : Fault) : Host.Outcome State Fault Refusal := .fault f

/-- End an instruction whose accesses may have failed: its next state, or its failure. -/
def commit : Except Fault State → Host.Outcome State Fault Refusal
  | .ok s => .next s
  | .error f => raise f

/-! ### Memory (00_scope.md R11, 20_memory.md) -/

/-- What an address nothing has written reads as: its reset byte, FONT[a] in 0..79 and 0 above (10_state.md R39,
20_memory.md R66, R69 item 4; log 22). -/
def unlisted (font : Vector Byte 80) (a : Nat) : Byte := if h : a < 80 then font[a] else 0

/-- The listed byte at an address, if there is one. -/
def Memory.find : Memory → Nat → Option Byte
  | [], _ => none
  | (k, b) :: m, a => if k = a then some b else Memory.find m a

/-- List a byte at an address, keeping addresses strictly rising. -/
def Memory.put : Memory → Nat → Byte → Memory
  | [], a, b => [(a, b)]
  | (k, c) :: m, a, b => if a < k then (a, b) :: (k, c) :: m else if a = k then (a, b) :: m else (k, c) :: Memory.put m a b

/-- Unlist an address. -/
def Memory.remove : Memory → Nat → Memory
  | [], _ => []
  | (k, c) :: m, a => if k = a then Memory.remove m a else (k, c) :: Memory.remove m a

/-- The byte M[a]. -/
def Memory.read (font : Vector Byte 80) (m : Memory) (a : Nat) : Byte := (Memory.find m a).getD (unlisted font a)

/-- `M[a] <- b`; the byte an unlisted address reads as is not listed. -/
def Memory.write (font : Vector Byte 80) (m : Memory) (a : Nat) (b : Byte) : Memory :=
  if b = unlisted font a then Memory.remove m a else Memory.put m a b

/-- The canonical form: addresses strictly rising and below 4096, no entry equal to what it would read as unlisted. -/
abbrev Memory.wf (font : Vector Byte 80) (m : Memory) : Prop :=
  (m.map Prod.fst).Pairwise (· < ·) ∧ ∀ c ∈ m, c.1 < memSize ∧ c.2 ≠ unlisted font c.1

/-- `M[a]`, for every address; addresses above 4095 exist for no instruction (`memRead` faults on them). -/
def State.byteAt (s : State) (a : Nat) : Byte := Memory.read s.config.font s.M a

/-- `MemRead(a, 1)` (00_scope.md R11, 20_memory.md R61). -/
def memRead (s : State) (a : Nat) : Except Fault Byte :=
  if 4095 < a then .error (.addressOutOfRange a) else .ok (s.byteAt a)

/-- `MemWrite(a, 1, v)` (00_scope.md R11); a store into the font region fails under FONT_STORE_FAULTS (20_memory.md R67). -/
def memWrite (s : State) (a : Nat) (b : Byte) : Except Fault State :=
  if 4095 < a then .error (.addressOutOfRange a)
  else if s.config.fontStoreFaults = true ∧ a < fontSize then .error (.addressOutOfRange a)
  else .ok { s with M := Memory.write s.config.font s.M a b }

/-- `MemRead` at `a, a+1, ...`, one byte each, ascending (20_memory.md R63). -/
def readBytes (s : State) : Nat → Nat → Except Fault (List Byte)
  | _, 0 => .ok []
  | a, n + 1 =>
    match memRead s a with
    | .error f => .error f
    | .ok b =>
      match readBytes s (a + 1) n with
      | .error f => .error f
      | .ok bs => .ok (b :: bs)

/-- `MemWrite` at `a, a+1, ...`, one byte each, ascending (20_memory.md R63). -/
def writeBytes (s : State) : Nat → List Byte → Except Fault State
  | _, [] => .ok s
  | a, b :: bs =>
    match memWrite s a b with
    | .error f => .error f
    | .ok t => writeBytes t (a + 1) bs

/-- Read the `n` bytes from `a` on, after the range check DXYN and FX65 make before any write: the payload is 4096
(44_display.md R241, 43_index_and_memory.md R215, D28; log 15). -/
def loadBlock (s : State) (a n : Nat) : Except Fault (List Byte) :=
  if 0 < n ∧ 4095 < a + n - 1 then .error (.addressOutOfRange 4096) else readBytes s a n

/-- Store bytes from `a` on, after the range check FX33 and FX55 make before any write (43_index_and_memory.md R213, R214). -/
def storeBlock (s : State) (a : Nat) (bs : List Byte) : Except Fault State :=
  if 0 < bs.length ∧ 4095 < a + bs.length - 1 then .error (.addressOutOfRange 4096) else writeBytes s a bs

/-! ### General registers (10_state.md R21): none is hardwired -/

/-- `V[x]`. -/
def State.readV (s : State) (x : Reg) : Byte := s.V.get x

/-- `V[x] <- b`. -/
def State.writeV (s : State) (x : Reg) (b : Byte) : State := { s with V := s.V.set x.val b x.isLt }

/-- `V[k], V[k+1], ... <- bs` in ascending order (43_index_and_memory.md R215); k stays below 16 in every use. -/
def State.writeVs (s : State) : Nat → List Byte → State
  | _, [] => s
  | k, b :: bs => State.writeVs (s.writeV (Fin.ofNat 16 k) b) (k + 1) bs

/-- `V[0..=x]`, in ascending order (43_index_and_memory.md R214). -/
def State.firstVs (s : State) (x : Reg) : List Byte := s.V.toList.take (x.val + 1)

/-- SP, the number of stack entries (10_state.md R28). -/
def State.sp (s : State) : Nat := s.stack.length

/-- STACK_DEPTH is finite and SP has reached it (41_control_flow.md R152). -/
def State.stackFull (s : State) : Bool :=
  match s.config.stackDepth with
  | none => false
  | some d => s.sp == d

/-! ### The program counter (40_cycle_driver.md R125); arithmetic modulo 65536 (D6, log 4) -/

/-- `pc <- (a + 2) mod 65536`. -/
def State.advance (s : State) : State := { s with pc := s.pc + 2 }

/-- `if c then pc <- (a + 4) mod 65536 else pc <- (a + 2) mod 65536`. -/
def State.skipIf (s : State) (c : Bool) : State := { s with pc := if c then s.pc + 4 else s.pc + 2 }

/-- `pc <- target`. -/
def State.jump (s : State) (target : Word) : State := { s with pc := target }

/-! ### The framebuffer (10_state.md R30) -/

/-- `fb[k]`: cell k is column k mod 64 of row k div 64. -/
def Framebuffer.cell (fb : Framebuffer) (k : Nat) : Bool := (fb[k / fbWidth]?.getD 0).getLsbD (k % fbWidth)

/-- `fb[k] <- not fb[k]`. -/
def Framebuffer.toggle (fb : Framebuffer) (k : Nat) : Framebuffer :=
  fb.setIfInBounds (k / fbWidth) ((fb[k / fbWidth]?.getD 0) ^^^ BitVec.twoPow 64 (k % fbWidth))

/-- Every cell false (44_display.md R240). -/
def Framebuffer.clear : Framebuffer := Vector.replicate 32 0

/-- The destination cell of sprite bit (r, c) drawn at (x, y), on unbounded naturals, wrapping the linear index
(44_display.md R242, D19, C11; log 18). -/
def spriteCell (x y r c : Nat) : Nat := ((x + c) + (y + r) * 64) % fbCells

/-- The cells of the set bits of sprite row `r`, most significant bit first (44_display.md R241). -/
def rowCells (x y r : Nat) (row : Byte) : List Nat :=
  ((List.range 8).filter fun c => row.getLsbD (7 - c)).map fun c => spriteCell x y r c

/-- The cells of the set bits of the sprite rows from row `r` on, in the order of R241's loop. -/
def spriteCells (x y : Nat) : Nat → List Byte → List Nat
  | _, [] => []
  | r, row :: rows => rowCells x y r row ++ spriteCells x y (r + 1) rows

/-- One set sprite bit: note a collision if the cell is set, then toggle it (44_display.md R241). -/
def drawBit (p : Framebuffer × Bool) (k : Nat) : Framebuffer × Bool := (p.1.toggle k, p.2 || p.1.cell k)

/-- R241's loop: the framebuffer after the sprite, and whether a set bit fell on a set cell. -/
def drawSprite (fb : Framebuffer) (x y : Nat) (rows : List Byte) : Framebuffer × Bool :=
  (spriteCells x y 0 rows).foldl drawBit (fb, false)

/-! ### The cycle's inputs (10_state.md R34, R35): sampled once and held for the whole cycle (D27) -/

/-- The cycle's keypad snapshot: what the host passes, else a free value (log 10). -/
def State.keypad (s : State) : Vector Bool 16 :=
  match s.inputs with
  | inp :: _ => inp.keypad
  | [] => Config.freeKeypad s.draws

/-- `key[k]`: `true` means pressed (D26). -/
def State.key (s : State) (k : Reg) : Bool := s.keypad.get k

/-- The cycle's random byte `rand`: what the host passes, else a free value (D14, log 10). -/
def State.rand (s : State) : Byte :=
  match s.inputs with
  | inp :: _ => inp.rand
  | [] => Config.freeRand s.draws

/-- The least k with `key[k]`, if any key is pressed (45_input_timers_random.md R264). -/
def State.lowestKey (s : State) : Option Reg := (List.finRange 16).find? s.key

/-! ### The two ends of a cycle (40_cycle_driver.md R122, R126, R128) -/

/-- `Fetch()` (20_memory.md R62): the word at pc, high byte first; any alignment (R64). -/
def fetch (s : State) : Except Fault Word :=
  match memRead s s.pc.toNat with
  | .error f => .error f
  | .ok hi =>
    match memRead s (s.pc.toNat + 1) with
    | .error f => .error f
    | .ok lo => .ok (wordOfBytes hi lo)

/-- `op <- word` (40_cycle_driver.md R122). -/
def State.latch (s : State) (op : Word) : State := { s with op := op }

/-- A rejected word raises UnknownOpcode (30_encoding.md R97). -/
def rejectFault : Reject → Fault
  | .unknownOpcode code => .unknownOpcode code

/-- `if t > 0 then t <- t - 1` (40_cycle_driver.md R126). -/
def timerTick (t : Byte) : Byte := if 0 < t.toNat then t - 1 else t

/-- The trace step's new trace: at 51 entries the oldest is dropped first (40_cycle_driver.md R128). -/
def appendTrace (trace : List String) (entry : String) : List String :=
  (if trace.length = traceDepth then trace.tail else trace) ++ [entry]

/-- What follows a successful execute step: both timers (R126), then the trace when `diag` is on (R128), then the cycle's
inputs are used up (the core never "retains it beyond the current call", 10_state.md R34). -/
def State.endCycle (s : State) : State :=
  { s with
    DT     := timerTick s.DT
    ST     := timerTick s.ST
    trace  := if s.diag then appendTrace s.trace (Config.freeTraceLine s.draws) else s.trace
    inputs := s.inputs.tail
    draws  := s.draws + 1 }

/-- End a cycle: a successful execute step runs `endCycle`, a failed one commits nothing (R127). -/
def finishCycle : Host.Outcome State Fault Refusal → Host.Outcome State Fault Refusal
  | .next t => .next t.endCycle
  | .fault f => .fault f
  | .refused r => .refused r

end Sys2Proof.Machine
end

