-- ==== Sys2Proof/Machine/Flags.lean ====
section
/-! DEFINITION. The values VF, the only flag, takes (10_state.md R22, 42_alu.md). The polarities are the source's own and kept
as stated (93_implementation_defined.md K1, K2; log 24). -/

namespace Sys2Proof.Machine

/-- A flag as a byte, 1 or 0. -/
def flagByte (c : Bool) : Byte := if c then 1 else 0

/-- Carry: `a + b > 255` (42_alu.md R186, R191). -/
def carryFlag (a b : Byte) : Byte := flagByte (decide (255 < a.toNat + b.toNat))

/-- Borrow of `a - b`: 1 when `a < b` (42_alu.md R187, R189, R191). -/
def borrowFlag (a b : Byte) : Byte := flagByte (decide (a.toNat < b.toNat))

/-- The bit a right shift drops: `vx & 1` (42_alu.md R188). -/
def shrFlag (vx : Byte) : Byte := vx &&& 1

/-- The bit a left shift drops, not normalised: `vx & 0x80` (42_alu.md R190). -/
def shlFlag (vx : Byte) : Byte := vx &&& 0x80

/-- Collision (44_display.md R241). -/
def collisionFlag (hit : Bool) : Byte := flagByte hit

/-- `VF <- f`. -/
def State.writeVF (s : State) (f : Byte) : State := s.writeV VF f

end Sys2Proof.Machine
end

