-- ==== Sys2Proof/Machine/Operands.lean ====
section
/-! DEFINITION. Operand forms: immediates, addresses, the font digit, the key index, decimal digits (30_encoding.md R93, R94). -/

namespace Sys2Proof.Machine

/-- `zext_16(NNN)` (30_encoding.md R94). -/
def addrOperand (nnn : Addr12) : Word := nnn.setWidth 16

/-- `(NNN + v0) mod 65536`, not masked to 12 bits (41_control_flow.md R157, D6). -/
def jumpV0Target (nnn : Addr12) (v0 : Byte) : Word := BitVec.ofNat 16 (nnn.toNat + v0.toNat)

/-- `(i + vx) & 0xFFF` (43_index_and_memory.md R211): the only address that wraps. -/
def addIndex (i : Word) (vx : Byte) : Word := BitVec.ofNat 16 ((i.toNat + vx.toNat) &&& 0xFFF)

/-- FX29's digit, `vx & 0x0F` (43_index_and_memory.md R212). -/
def fontDigit (vx : Byte) : Nat := vx.toNat &&& 0x0F

/-- The address of glyph `digit`, `5 * digit` (43_index_and_memory.md R212). -/
def glyphAddr (digit : Nat) : Word := BitVec.ofNat 16 (glyphSize * digit)

/-- The decimal digits of FX33, hundreds first (43_index_and_memory.md R213). -/
def bcdDigits (vx : Byte) : List Byte :=
  [BitVec.ofNat 8 (vx.toNat / 100), BitVec.ofNat 8 (vx.toNat / 10 % 10), BitVec.ofNat 8 (vx.toNat % 10)]

/-- The key V[X] names, or KeyIndexOutOfRange above 15 (45_input_timers_random.md R261, D12; log 16). -/
def keyIndex (vx : Byte) : Except Fault Reg :=
  if h : vx.toNat < 16 then .ok ⟨vx.toNat, h⟩ else .error (.keyIndexOutOfRange vx)

/-- A skip on a key: `c` of the key V[X] names decides (45_input_timers_random.md R261, R262). -/
def skipOnKey (s : State) (vx : Byte) (c : Bool → Bool) : Except Fault State :=
  match keyIndex vx with
  | .error f => .error f
  | .ok k => .ok (s.skipIf (c (s.key k)))

/-- What WAIT_KEY_VX writes to V[X] when key `k` is the least one pressed (45_input_timers_random.md R264, D13; log 7). -/
def State.writeWaitKey (s : State) (x k : Reg) : State :=
  match s.config.waitKeyVx with
  | .unchanged => s
  | .lowestPressed => s.writeV x (BitVec.ofNat 8 k.val)
  | .draw => s.writeV x (Config.freeWaitKey s.draws)

end Sys2Proof.Machine
end

