-- ==== Sys2Proof/Machine/Alu.lean ====
section
/-! DEFINITION. The 8-bit ALU (42_alu.md). Operands are the values before the instruction, and the last write to VF is the one
it keeps when X = F (40_cycle_driver.md R124, D9; log 13). Byte arithmetic is modulo 256 (R191). -/

namespace Sys2Proof.Machine

/-- LD Vx, byte (R180). -/
def execLdImm (x : Reg) (kk : Byte) (s : State) : Host.Outcome State Fault Refusal := .next (s.writeV x kk).advance

/-- ADD Vx, byte (R181): no flag. -/
def execAddImm (x : Reg) (kk : Byte) (s : State) : Host.Outcome State Fault Refusal :=
  .next (s.writeV x (s.readV x + kk)).advance

/-- LD Vx, Vy (R182). -/
def execLdReg (x y : Reg) (s : State) : Host.Outcome State Fault Refusal := .next (s.writeV x (s.readV y)).advance

/-- OR Vx, Vy (R183): VF is not reset. -/
def execOr (x y : Reg) (s : State) : Host.Outcome State Fault Refusal :=
  .next (s.writeV x (s.readV x ||| s.readV y)).advance

/-- AND Vx, Vy (R184). -/
def execAnd (x y : Reg) (s : State) : Host.Outcome State Fault Refusal :=
  .next (s.writeV x (s.readV x &&& s.readV y)).advance

/-- XOR Vx, Vy (R185). -/
def execXor (x y : Reg) (s : State) : Host.Outcome State Fault Refusal :=
  .next (s.writeV x (s.readV x ^^^ s.readV y)).advance

/-- ADD Vx, Vy (R186): the sum, then the carry. -/
def execAddReg (x y : Reg) (s : State) : Host.Outcome State Fault Refusal :=
  .next ((s.writeV x (s.readV x + s.readV y)).writeVF (carryFlag (s.readV x) (s.readV y))).advance

/-- SUB Vx, Vy (R187): the difference, then the borrow. -/
def execSub (x y : Reg) (s : State) : Host.Outcome State Fault Refusal :=
  .next ((s.writeV x (s.readV x - s.readV y)).writeVF (borrowFlag (s.readV x) (s.readV y))).advance

/-- SHR Vx (R188): the flag, then the shifted value. -/
def execShr (x : Reg) (s : State) : Host.Outcome State Fault Refusal :=
  .next ((s.writeVF (shrFlag (s.readV x))).writeV x (s.readV x >>> 1)).advance

/-- SUBN Vx, Vy (R189): VY - VX, then the borrow. -/
def execSubn (x y : Reg) (s : State) : Host.Outcome State Fault Refusal :=
  .next ((s.writeV x (s.readV y - s.readV x)).writeVF (borrowFlag (s.readV y) (s.readV x))).advance

/-- SHL Vx (R190): the flag, then the shifted value. -/
def execShl (x : Reg) (s : State) : Host.Outcome State Fault Refusal :=
  .next ((s.writeVF (shlFlag (s.readV x))).writeV x (s.readV x <<< 1)).advance

end Sys2Proof.Machine
end

