-- ==== Sys2Proof/Machine/ControlFlow.lean ====
section
/-! DEFINITION. Control transfer (41_control_flow.md). -/

namespace Sys2Proof.Machine

/-- RET (R150): pop an entry and resume 2 past it. -/
def execRet (s : State) : Host.Outcome State Fault Refusal :=
  match s.stack.getLast? with
  | none => raise .stackUnderflow
  | some r => .next ({ s with stack := s.stack.dropLast }.jump (r + 2))

/-- JP addr (R151). -/
def execJp (nnn : Addr12) (s : State) : Host.Outcome State Fault Refusal := .next (s.jump (addrOperand nnn))

/-- CALL addr (R152): push the address of the call itself. -/
def execCall (nnn : Addr12) (s : State) : Host.Outcome State Fault Refusal :=
  if s.stackFull then raise .stackOverflow
  else .next ({ s with stack := s.stack ++ [s.pc] }.jump (addrOperand nnn))

/-- SE Vx, byte (R153). -/
def execSeImm (x : Reg) (kk : Byte) (s : State) : Host.Outcome State Fault Refusal := .next (s.skipIf (s.readV x == kk))

/-- SNE Vx, byte (R154). -/
def execSneImm (x : Reg) (kk : Byte) (s : State) : Host.Outcome State Fault Refusal := .next (s.skipIf (s.readV x != kk))

/-- SE Vx, Vy (R155). -/
def execSeReg (x y : Reg) (s : State) : Host.Outcome State Fault Refusal := .next (s.skipIf (s.readV x == s.readV y))

/-- SNE Vx, Vy (R156). -/
def execSneReg (x y : Reg) (s : State) : Host.Outcome State Fault Refusal := .next (s.skipIf (s.readV x != s.readV y))

/-- JP V0, addr (R157). -/
def execJpV0 (nnn : Addr12) (s : State) : Host.Outcome State Fault Refusal := .next (s.jump (jumpV0Target nnn (s.readV V0)))

end Sys2Proof.Machine
end

