-- ==== Sys2Proof/Machine/Display.lean ====
section
/-! DEFINITION. The framebuffer writer (44_display.md). -/

namespace Sys2Proof.Machine

/-- CLS (R240). -/
def execCls (s : State) : Host.Outcome State Fault Refusal := .next { s with fb := Framebuffer.clear }.advance

/-- The state after a sprite of these rows is drawn at (V[x], V[y]): the cells toggled, VF the collision (R241). The
coordinates are the values before VF is reset. -/
def State.drawRows (s : State) (x y : Reg) (rows : List Byte) : State :=
  { s with fb := (drawSprite s.fb (s.readV x).toNat (s.readV y).toNat rows).1 }.writeVF
    (collisionFlag (drawSprite s.fb (s.readV x).toNat (s.readV y).toNat rows).2)

/-- DRW Vx, Vy, nibble (R241): N sprite rows from I on; N = 0 draws nothing and clears VF. -/
def execDrw (x y : Reg) (n : Fin 16) (s : State) : Host.Outcome State Fault Refusal :=
  commit ((loadBlock s s.I.toNat n.val).map fun rows => (s.drawRows x y rows).advance)

end Sys2Proof.Machine
end

