-- ==== Sys2Proof/Machine/IndexMemory.lean ====
section
/-! DEFINITION. The index register, stores and loads (43_index_and_memory.md). FX55 and FX65 leave I unchanged (D15, log 17). -/

namespace Sys2Proof.Machine

/-- LD I, addr (R210). -/
def execLdI (nnn : Addr12) (s : State) : Host.Outcome State Fault Refusal := .next { s with I := addrOperand nnn }.advance

/-- ADD I, Vx (R211): masked to 12 bits, no flag. -/
def execAddI (x : Reg) (s : State) : Host.Outcome State Fault Refusal :=
  .next { s with I := addIndex s.I (s.readV x) }.advance

/-- LD F, Vx (R212): a digit of 9 or more raises UnknownOpcode with the word of this cycle. -/
def execLdF (x : Reg) (s : State) : Host.Outcome State Fault Refusal :=
  if fontDigitLimit ≤ fontDigit (s.readV x) then raise (.unknownOpcode s.op)
  else .next { s with I := glyphAddr (fontDigit (s.readV x)) }.advance

/-- LD B, Vx (R213): the three decimal digits at I, I+1, I+2. -/
def execLdB (x : Reg) (s : State) : Host.Outcome State Fault Refusal :=
  commit ((storeBlock s s.I.toNat (bcdDigits (s.readV x))).map State.advance)

/-- LD [I], Vx (R214): V0..VX at I..I+X. -/
def execLdMI (x : Reg) (s : State) : Host.Outcome State Fault Refusal :=
  commit ((storeBlock s s.I.toNat (s.firstVs x)).map State.advance)

/-- LD Vx, [I] (R215): V0..VX from I..I+X. -/
def execLdVI (x : Reg) (s : State) : Host.Outcome State Fault Refusal :=
  commit ((loadBlock s s.I.toNat (x.val + 1)).map fun bs => (s.writeVs 0 bs).advance)

end Sys2Proof.Machine
end

