-- ==== Sys2Proof/Machine/InputTimers.lean ====
section
/-! DEFINITION. Random byte, keypad and timers (45_input_timers_random.md). The timer decrement is the cycle's, after the
instruction (40_cycle_driver.md R126). -/

namespace Sys2Proof.Machine

/-- RND Vx, byte (R260). -/
def execRnd (x : Reg) (kk : Byte) (s : State) : Host.Outcome State Fault Refusal := .next (s.writeV x (s.rand &&& kk)).advance

/-- SKP Vx (R261). -/
def execSkp (x : Reg) (s : State) : Host.Outcome State Fault Refusal := commit (skipOnKey s (s.readV x) fun pressed => pressed)

/-- SKNP Vx (R262). -/
def execSknp (x : Reg) (s : State) : Host.Outcome State Fault Refusal := commit (skipOnKey s (s.readV x) fun pressed => !pressed)

/-- LD Vx, DT (R263): the value before this cycle's decrement. -/
def execLdVDT (x : Reg) (s : State) : Host.Outcome State Fault Refusal := .next (s.writeV x s.DT).advance

/-- LD Vx, K (R264): no advance unless a key is pressed; V[X] as WAIT_KEY_VX says. -/
def execLdK (x : Reg) (s : State) : Host.Outcome State Fault Refusal :=
  .next (match s.lowestKey with
    | some k => (s.writeWaitKey x k).advance
    | none => s)

/-- LD DT, Vx (R265). -/
def execLdDT (x : Reg) (s : State) : Host.Outcome State Fault Refusal := .next { s with DT := s.readV x }.advance

/-- LD ST, Vx (R266). -/
def execLdST (x : Reg) (s : State) : Host.Outcome State Fault Refusal := .next { s with ST := s.readV x }.advance

end Sys2Proof.Machine
end

