-- ==== Sys2Proof/Machine/Step.lean ====
section
/-! DEFINITION. One cycle (40_cycle_driver.md R121, R132): fetch, decode, execute, timers and trace. -/

namespace Sys2Proof.Machine

/-- Run one instruction on the state that holds its word in `op`, and end the cycle. -/
def runInstr (i : Instr) (s : State) : Host.Outcome State Fault Refusal := finishCycle (exec i s)

/-- The cycle. Failures come in the order fetch, decode, execute (60_exceptions.md R302), and commit nothing (R127). -/
def step (s : State) : Host.Outcome State Fault Refusal :=
  match fetch s with
  | .error f => raise f
  | .ok op =>
    match decode op with
    | .error r => raise (rejectFault r)
    | .ok i => runInstr i (s.latch op)

/-- `s` with the instruction word stored at pc and pc + 1, high byte first, where step fetches next (log 20). A pc above 4094
can hold no instruction, and then `s` is left as it is. -/
def State.withFetchWord (s : State) (nbits w : Nat) : State :=
  if 4094 < s.pc.toNat then s
  else
    { s with
      M := Memory.write s.config.font
        (Memory.write s.config.font s.M s.pc.toNat (hiByte (BitVec.ofNat 16 (w % 2 ^ nbits))))
        (s.pc.toNat + 1) (loByte (BitVec.ofNat 16 (w % 2 ^ nbits))) }

end Sys2Proof.Machine
end

