-- ==== Sys2Proof/Machine/Boot.lean ====
section
/-! DEFINITION. Creation and the ROM load (70_reset_and_hazards.md R330, R332). -/

namespace Sys2Proof.Machine

/-- Copy bytes to memory from `a` on. -/
def Memory.load (font : Vector Byte 80) (m : Memory) : Nat → List Byte → Memory
  | _, [] => m
  | a, b :: bs => Memory.load font (Memory.write font m a b) (a + 1) bs

/-- `RomLoad(rom)`: the whole load fails with AddressOutOfRange(4096) when the ROM does not fit above 512 (R332, D18). -/
def romLoad (s : State) (rom : List Byte) : Except Fault State :=
  if memSize < programStart + rom.length then .error (.addressOutOfRange 4096)
  else .ok { s with M := Memory.load s.config.font s.M programStart rom }

/-- `Create(rom)` with the model's parameters and the host's `diag` (R330). The font is what 0..79 read as unlisted. -/
def create (config : Config) (diag : Bool) (rom : List Byte) : Except Fault State :=
  romLoad { State.reset with config := config, diag := diag } rom

end Sys2Proof.Machine
end

