-- ==== Sys2Proof/Machine/Ports.lean ====
section
/-! DEFINITION. The core's ports as the host drives them (40_cycle_driver.md R120): one `cycle` call with its inputs and its
result, the framebuffer and trace read ports, the diagnostics toggle. The host writes nothing else (20_memory.md R70, D24). -/

namespace Sys2Proof.Machine

/-- What a cycle returns: `Ok(op)` or `Err(F)` (40_cycle_driver.md R120, R129). -/
inductive CycleResult where
  | ok (op : Word)
  | err (f : Fault)
  /-- For totality: the model has no answer. No cycle returns it, as every instruction has its meaning. -/
  | refused (r : Refusal)
  deriving DecidableEq, Repr

/-- `cycle(key, rand)` (40_cycle_driver.md R132): its result and the state after it. A failing cycle leaves the state exactly
as it was (R127). -/
def cycle (inp : CycleInput) (s : State) : CycleResult × State :=
  match step { s with inputs := inp :: s.inputs } with
  | .next t => (.ok t.op, t)
  | .fault f => (.err f, s)
  | .refused r => (.refused r, s)

/-- The framebuffer read port: cell x + 64y (60_exceptions.md R310, 10_state.md R30). -/
def fbRead (s : State) (k : Fin 2048) : Bool := s.fb.cell k.val

/-- The trace read port. -/
def traceRead (s : State) : List String := s.trace

/-- The host sets `diag` between cycles (10_state.md R36, 20_memory.md R70). -/
def setDiag (s : State) (on : Bool) : State := { s with diag := on }

end Sys2Proof.Machine
end

