-- ==== Sys2Proof/Safety.lean ====
section
/-! DEFINITION. The terms claims are stated in: the invariant of the state, frames, the spec's tables of writers, readers and
failures, and safe runs. -/

namespace Sys2Proof.Machine

/-! ### The invariant -/

/-- What holds of every reachable state: memory is canonical, I is 12 bits (10_state.md R24), pc is at most 0x10FE (R26), a
stack entry is at most 4094 (R27), SP is at most a finite STACK_DEPTH (R38), the trace has at most 51 entries (R36). -/
structure State.Inv (s : State) : Prop where
  memory : Memory.wf s.config.font s.M
  index  : s.I.toNat ≤ 0xFFF
  pc     : s.pc.toNat ≤ 0x10FE
  stack  : ∀ e ∈ s.stack, e.toNat ≤ 4094
  depth  : ∀ d, s.config.stackDepth = some d → s.sp ≤ d
  trace  : s.trace.length ≤ traceDepth

/-! ### Frames -/

/-- The parts of the state. -/
inductive Part where
  | registers | index | pc | stack | delayTimer | soundTimer | framebuffer | opcode | trace | diag | memory | config
  | inputs | draws
  deriving DecidableEq, Repr

/-- The part is the same in both states; memory through its bytes, registers through their reads. -/
def Part.same (s t : State) : Part → Prop
  | .registers => ∀ r, t.readV r = s.readV r
  | .index => t.I = s.I
  | .pc => t.pc = s.pc
  | .stack => t.stack = s.stack
  | .delayTimer => t.DT = s.DT
  | .soundTimer => t.ST = s.ST
  | .framebuffer => t.fb = s.fb
  | .opcode => t.op = s.op
  | .trace => t.trace = s.trace
  | .diag => t.diag = s.diag
  | .memory => ∀ a, t.byteAt a = s.byteAt a
  | .config => t.config = s.config
  | .inputs => t.inputs = s.inputs
  | .draws => t.draws = s.draws

/-- Every part outside the list is unchanged. -/
def FrameBut (parts : List Part) (s t : State) : Prop := ∀ p, p ∉ parts → p.same s t

/-- Every general register outside the list is unchanged. -/
def RegsBut (regs : List Reg) (s t : State) : Prop := ∀ r, r ∉ regs → t.readV r = s.readV r

/-- The whole effect of an instruction that writes one register and advances: the value, the next pc (40_cycle_driver.md R125),
the other registers and every other part unchanged. -/
def WritesOnly (x : Reg) (v : Byte) (s t : State) : Prop :=
  t.readV x = v ∧ RegsBut [x] s t ∧ t.pc = s.pc + 2 ∧ FrameBut [.registers, .pc] s t

/-- The whole effect of an instruction that writes V[x], then the flag to VF, and advances: when x is VF the flag stays. -/
def WritesThenFlag (x : Reg) (v flag : Byte) (s t : State) : Prop :=
  (x ≠ VF → t.readV x = v) ∧ t.readV VF = flag ∧ RegsBut [x, VF] s t ∧ t.pc = s.pc + 2 ∧ FrameBut [.registers, .pc] s t

/-- The whole effect of an instruction that writes the flag to VF, then V[x], and advances: when x is VF the value stays. -/
def FlagThenWrites (x : Reg) (v flag : Byte) (s t : State) : Prop :=
  t.readV x = v ∧ (x ≠ VF → t.readV VF = flag) ∧ RegsBut [x, VF] s t ∧ t.pc = s.pc + 2 ∧ FrameBut [.registers, .pc] s t

/-- The whole effect of a skip on a condition: only pc changes. -/
def SkipsIf (c : Prop) (s t : State) : Prop :=
  (c → t.pc = s.pc + 4) ∧ (¬ c → t.pc = s.pc + 2) ∧ FrameBut [.pc] s t

end Sys2Proof.Machine

namespace Sys2Proof

open Machine (Part)

/-! ### The spec's tables over all instructions -/

/-- The parts an instruction's execute step may write, pc left out (10_state.md R22 to R30, 20_memory.md R68). -/
def Instr.writes : Instr → List Part
  | .cls => [.framebuffer]
  | .ret | .call _ => [.stack]
  | .drw _ _ _ => [.framebuffer, .registers]
  | .ldI _ | .addI _ | .ldF _ => [.index]
  | .ldB _ | .ldMI _ => [.memory]
  | .ldDT _ => [.delayTimer]
  | .ldST _ => [.soundTimer]
  | .jp _ | .jpV0 _ | .seImm _ _ | .sneImm _ _ | .seReg _ _ | .sneReg _ _ | .skp _ | .sknp _ => []
  | .ldImm _ _ | .addImm _ _ | .ldReg _ _ | .or _ _ | .and _ _ | .xor _ _ | .addReg _ _ | .sub _ _ | .shr _ | .subn _ _
  | .shl _ | .rnd _ _ | .ldVDT _ | .ldK _ | .ldVI _ => [.registers]

/-- The general registers an instruction may write (10_state.md R22, R23). -/
def Instr.writesRegs (config : Config) : Instr → List Reg
  | .ldImm x _ | .addImm x _ | .ldReg x _ | .or x _ | .and x _ | .xor x _ | .rnd x _ | .ldVDT x => [x]
  | .addReg x _ | .sub x _ | .shr x | .subn x _ | .shl x => [x, VF]
  | .drw _ _ _ => [VF]
  | .ldK x => if config.waitKeyVx = .unchanged then [] else [x]
  | .ldVI x => (List.finRange 16).filter (· ≤ x)
  | .cls | .ret | .call _ | .jp _ | .jpV0 _ | .seImm _ _ | .sneImm _ _ | .seReg _ _ | .sneReg _ _ | .skp _ | .sknp _
  | .ldI _ | .addI _ | .ldF _ | .ldB _ | .ldMI _ | .ldDT _ | .ldST _ => []

/-- The keypad is read only by EX9E, EXA1 and FX0A (40_cycle_driver.md R131). -/
def Instr.readsKeypad : Instr → Bool
  | .skp _ | .sknp _ | .ldK _ => true
  | _ => false

/-- `rand` is read only by CXKK (40_cycle_driver.md R131). -/
def Instr.readsRand : Instr → Bool
  | .rnd _ _ => true
  | _ => false

end Sys2Proof

namespace Sys2Proof.Machine

/-- A store of at least one byte from I on that reaches the font region under FONT_STORE_FAULTS (20_memory.md R67). -/
abbrev State.fontStoreBlocked (s : State) : Prop := s.config.fontStoreFaults = true ∧ s.I.toNat ≤ 79

/-- The failure of an instruction's execute step, if any, row by row of 60_exceptions.md R301. -/
def execFailure (i : Instr) (s : State) : Option Fault :=
  match i with
  | .ret => if s.stack = [] then some .stackUnderflow else none
  | .call _ => if s.config.stackDepth = some s.sp then some .stackOverflow else none
  | .ldF x => if 9 ≤ (s.readV x).toNat % 16 then some (.unknownOpcode s.op) else none
  | .drw _ _ n => if 0 < n.val ∧ 4095 < s.I.toNat + n.val - 1 then some (.addressOutOfRange 4096) else none
  | .ldB _ =>
    if 4095 < s.I.toNat + 2 then some (.addressOutOfRange 4096)
    else if s.fontStoreBlocked then some (.addressOutOfRange s.I.toNat) else none
  | .ldMI x =>
    if 4095 < s.I.toNat + x.val then some (.addressOutOfRange 4096)
    else if s.fontStoreBlocked then some (.addressOutOfRange s.I.toNat) else none
  | .ldVI x => if 4095 < s.I.toNat + x.val then some (.addressOutOfRange 4096) else none
  | .skp x | .sknp x => if 15 < (s.readV x).toNat then some (.keyIndexOutOfRange (s.readV x)) else none
  | .cls | .jp _ | .jpV0 _ | .seImm _ _ | .sneImm _ _ | .seReg _ _ | .sneReg _ _ | .ldImm _ _ | .addImm _ _ | .ldReg _ _
  | .or _ _ | .and _ _ | .xor _ _ | .addReg _ _ | .sub _ _ | .shr _ | .subn _ _ | .shl _ | .ldI _ | .addI _ | .rnd _ _
  | .ldVDT _ | .ldK _ | .ldDT _ | .ldST _ => none

/-- The word at pc, high byte first (20_memory.md R62). -/
def State.wordAtPc (s : State) : Word := wordOfBytes (s.byteAt s.pc.toNat) (s.byteAt (s.pc.toNat + 1))

/-- The failure of a cycle, if any: the fetch, then the decode, then the execute step (60_exceptions.md R301, R302). -/
def cycleFailure (s : State) : Option Fault :=
  if 4095 < s.pc.toNat then some (.addressOutOfRange s.pc.toNat)
  else if s.pc.toNat = 4095 then some (.addressOutOfRange 4096)
  else
    match decode s.wordAtPc with
    | .error _ => some (.unknownOpcode s.wordAtPc)
    | .ok i => execFailure i (s.latch s.wordAtPc)

/-- The state fetches `i` next. -/
def State.fetches (s : State) (i : Instr) : Prop := ∃ op, fetch s = .ok op ∧ decode op = .ok i

/-- The state fetches an instruction, if any, of which `p` is false. -/
def State.fetchesNo (s : State) (p : Instr → Bool) : Prop := ∀ i, s.fetches i → p i = false

/-- Sprite bit (r, c) of the rows at I is set (44_display.md R241: c = 0 is bit 7). -/
def State.spriteBit (s : State) (r c : Nat) : Bool := (s.byteAt (s.I.toNat + r)).getLsbD (7 - c)

/-- A set bit of the n-row sprite at I, drawn at (x, y), lands on cell k (44_display.md R241, R242). -/
def State.spriteLit (s : State) (x y n k : Nat) : Prop :=
  ∃ r, r < n ∧ ∃ c, c < 8 ∧ s.spriteBit r c = true ∧ k = ((x + c) + (y + r) * 64) % 2048

/-! ### Outcomes and runs -/

/-- Change the next state of an outcome, if it has one. -/
def onNext (g : State → State) : Host.Outcome State Fault Refusal → Host.Outcome State Fault Refusal
  | .next t => .next (g t)
  | .fault f => .fault f
  | .refused r => .refused r

/-- The state without its trace and toggle. -/
def State.forgetTrace (s : State) : State := { s with trace := [], diag := false }

/-- The next cycle from `s` raises no failure; a run ends at the first cycle that is not safe (60_exceptions.md R304). -/
def State.Safe (s : State) : Prop := cycleFailure s = none

end Sys2Proof.Machine
end

