-- ==== Sys2Proof/Certificates/Slice0/Obligations.lean ====
section
/-! DEFINITION. The statements for the provers. -/

open Sys2Proof Sys2Proof.Machine

/-! ### Reset and creation -/

/-- R39: the reset value of every field the spec gives one. FONT is whatever `config.font` holds (R7: OPEN). -/
def Obligations.ResetLeavesStatedValues : Prop :=
  (∀ r, State.reset.readV r = 0) ∧ State.reset.I = 0 ∧ State.reset.pc = 0x200 ∧ State.reset.stack = [] ∧
  State.reset.sp = 0 ∧ State.reset.DT = 0 ∧ State.reset.ST = 0 ∧ (∀ k : Fin 2048, fbRead State.reset k = false) ∧
  State.reset.op = 0 ∧ State.reset.trace = [] ∧
  (∀ a (h : a < 80), State.reset.byteAt a = State.reset.config.font[a]) ∧
  (∀ a, 80 ≤ a → a ≤ 4095 → State.reset.byteAt a = 0)

/-- A ROM of up to 3584 bytes is copied verbatim from 512 on over the reset state, with the host's parameters and `diag`; a
longer one fails the whole load (the spec's own decision D18: "the whole load fails with AddressOutOfRange(4096)"). That memory is
in canonical form is about the model's own form of it (log 22). -/
def Obligations.CreateLoadsRomOrFails : Prop :=
  ∀ (config : Config) (diag : Bool) (rom : List Byte),
    (rom.length ≤ 3584 → ∃ s, create config diag rom = .ok s ∧
      (∀ j (h : j < rom.length), s.byteAt (512 + j) = rom[j]) ∧
      (∀ a (h : a < 80), s.byteAt a = config.font[a]) ∧
      (∀ a, 80 ≤ a → a < 512 ∨ 512 + rom.length ≤ a → s.byteAt a = 0) ∧
      (∀ r, s.readV r = 0) ∧ s.I = 0 ∧ s.pc = 0x200 ∧ s.stack = [] ∧ s.DT = 0 ∧ s.ST = 0 ∧
      (∀ k : Fin 2048, fbRead s k = false) ∧ s.op = 0 ∧ s.trace = [] ∧ s.diag = diag ∧ s.config = config ∧
      Memory.wf config.font s.M) ∧
    (3584 < rom.length → create config diag rom = .error (.addressOutOfRange 4096))

/-! ### Encoding -/

/-- Eighteen words, at least one of each of the 16 families, as 30_encoding.md and 95_test_vectors.md write them, decode to their
instruction, and one word is rejected with itself. The opcode map is presumed by the spec itself (93_implementation_defined.md G1,
log 1); the bits ignored in 0x0FE0, 0x07EE, 0x5121 and 0x9AB7 are its decisions D2, D3 (log 2), the rejected word D4 (log 3). -/
def Obligations.SpecWordsDecode : Prop :=
  decode 0x0FE0 = .ok .cls ∧ decode 0x07EE = .ok .ret ∧ decode 0x1234 = .ok (.jp 0x234) ∧ decode 0x2300 = .ok (.call 0x300) ∧
  decode 0x3312 = .ok (.seImm 3 0x12) ∧ decode 0x4313 = .ok (.sneImm 3 0x13) ∧ decode 0x5121 = .ok (.seReg 1 2) ∧
  decode 0x6005 = .ok (.ldImm 0 5) ∧ decode 0x7003 = .ok (.addImm 0 3) ∧ decode 0x8126 = .ok (.shr 1) ∧
  decode 0x8127 = .ok (.subn 1 2) ∧ decode 0x9AB7 = .ok (.sneReg 0xA 0xB) ∧ decode 0xA2F0 = .ok (.ldI 0x2F0) ∧
  decode 0xB300 = .ok (.jpV0 0x300) ∧ decode 0xC10F = .ok (.rnd 1 0x0F) ∧ decode 0xD011 = .ok (.drw 0 1 1) ∧
  decode 0xE59E = .ok (.skp 5) ∧ decode 0xF255 = .ok (.ldMI 2) ∧ decode 0x0123 = .error (.unknownOpcode 0x0123)

/-- Decoding the encoding of an instruction gives it back, with every operand at every value. -/
def Obligations.DecodeOfEncodeIsIdentity : Prop := ∀ i, decode (encode i) = .ok i

/-- A decoded instruction is its word with the ignored bits cleared, and does not depend on those bits (30_encoding.md section 4;
which bits are ignored is the spec's own decision D2, D3, log 2). -/
def Obligations.DecodeIgnoresOnlyUnusedBits : Prop :=
  ∀ w i, decode w = .ok i →
    encode i = w &&& i.usedBits ∧ ∀ w', w' &&& i.usedBits = w &&& i.usedBits → decode w' = .ok i

/-- A word decodes to an instruction of the row it matches, every operand read from its field; and a word that matches a row
decodes to that row (30_encoding.md sections 1, 3; the map is presumed by the spec itself, G1, log 1). -/
def Obligations.DecodeSelectsRowAndReadsFields : Prop :=
  ∀ w : Word,
    (∀ i, decode w = .ok i → i.row ∈ opcodeMap ∧ w &&& i.row.mask = i.row.pattern ∧
      ∀ o ∈ i.operands, o.value = w.toNat / 2 ^ o.lo % 2 ^ (o.hi + 1 - o.lo)) ∧
    (∀ r ∈ opcodeMap, w &&& r.mask = r.pattern → ∃ i, decode w = .ok i ∧ i.row = r)

/-- The unknown words, family by family; the rejection carries the raw word (30_encoding.md section 4; the sub-codes are presumed
by the spec itself, G1, log 1, and `0NNN` is its decision D4, log 3). -/
def Obligations.DecodeRejectsExactlyUnknownWords : Prop :=
  ∀ w : Word,
    (decode w = .error (.unknownOpcode w) ↔
      (w.toNat / 4096 = 0x0 ∧ w.toNat % 256 ≠ 0xE0 ∧ w.toNat % 256 ≠ 0xEE) ∨
      (w.toNat / 4096 = 0x8 ∧ 8 ≤ w.toNat % 16 ∧ w.toNat % 16 ≠ 0xE) ∨
      (w.toNat / 4096 = 0xE ∧ w.toNat % 256 ≠ 0x9E ∧ w.toNat % 256 ≠ 0xA1) ∨
      (w.toNat / 4096 = 0xF ∧ w.toNat % 256 ∉ [0x07, 0x0A, 0x15, 0x18, 0x1E, 0x29, 0x33, 0x55, 0x65])) ∧
    (∀ r, decode w = .error r → r = .unknownOpcode w)

/-- The 34 rows of the opcode map (log 1) never overlap: two of them differ in a bit both fix. -/
def Obligations.OpcodeRowsNeverOverlap : Prop :=
  opcodeMap.length = 34 ∧ opcodeMap.Pairwise fun r r' => (r.pattern ^^^ r'.pattern) &&& r.mask &&& r'.mask ≠ 0

/-! ### Memory and fetch -/

/-- One byte of memory is read and written at addresses 0 to 4095, and every other address fails, carrying itself. A store leaves
every other byte and every other part as it was. Under FONT_STORE_FAULTS, the spec's own parameter (D17, log 8), a store to
0..79 fails. -/
def Obligations.MemoryPrimitivesCheckRange : Prop :=
  ∀ (s : State) (a : Nat) (b : Byte),
    (a ≤ 4095 → memRead s a = .ok (s.byteAt a)) ∧
    (4095 < a → memRead s a = .error (.addressOutOfRange a) ∧ memWrite s a b = .error (.addressOutOfRange a)) ∧
    (a ≤ 79 → s.config.fontStoreFaults = true → memWrite s a b = .error (.addressOutOfRange a)) ∧
    (a ≤ 4095 → (s.config.fontStoreFaults = false ∨ 80 ≤ a) →
      ∃ t, memWrite s a b = .ok t ∧ t.byteAt a = b ∧ (∀ c, c ≠ a → t.byteAt c = s.byteAt c) ∧ FrameBut [.memory] s t)

/-- The fetch reads M[pc] and M[pc+1], high byte first, and fails past 4095 (20_memory.md section 2). That it does so at an odd pc
too is the spec's own decision D5 (log 4). -/
def Obligations.FetchReadsBigEndianWord : Prop :=
  ∀ s : State,
    (s.pc.toNat ≤ 4094 → ∃ w, fetch s = .ok w ∧
      w.toNat = (s.byteAt s.pc.toNat).toNat * 256 + (s.byteAt (s.pc.toNat + 1)).toNat) ∧
    (s.pc.toNat = 4095 → fetch s = .error (.addressOutOfRange 4096)) ∧
    (4095 < s.pc.toNat → fetch s = .error (.addressOutOfRange s.pc.toNat))

/-- After register-dump has stored V0 and V1 at I, a fetch at I gives that word; the store does not change `op` (20_memory.md
section 4: "a store made by an instruction in cycle n is seen by the fetch of every later cycle"). -/
def Obligations.StoredWordIsFetchedNext : Prop :=
  ∀ (s t : State) (x : Reg), 1 ≤ x.val → exec (.ldMI x) s = .next t →
    fetch { t with pc := s.I } = .ok (wordOfBytes (s.readV 0) (s.readV 1)) ∧ t.op = s.op

/-- The model's own (log 20): the word withFetchWord places is the word the next fetch reads, and no other part changes. -/
def Obligations.PlacedWordIsFetched : Prop :=
  ∀ (s : State) (w : Nat), s.pc.toNat ≤ 4094 →
    fetch (s.withFetchWord 16 w) = .ok (BitVec.ofNat 16 w) ∧ FrameBut [.memory] s (s.withFetchWord 16 w) ∧
    (∀ a, a ≠ s.pc.toNat → a ≠ s.pc.toNat + 1 → (s.withFetchWord 16 w).byteAt a = s.byteAt a)

/-! ### The cycle -/

/-- A cycle runs the instruction its word decodes to, on the state that holds the word in `op`, then ends the cycle; a failure
of the instruction is the cycle's. -/
def Obligations.StepRunsDecodedInstruction : Prop :=
  ∀ (s : State) (op : Word) (i : Instr), fetch s = .ok op → decode op = .ok i →
    (∀ t, exec i { s with op := op } = .next t → step s = .next t.endCycle) ∧
    (∀ f, exec i { s with op := op } = .fault f → step s = .fault f)

/-- The cycle's end touches only the timers, the trace and the model's own input fields: one input is used up and the
free-value counter advances (log 10). -/
def Obligations.EndOfCycleFrame : Prop :=
  ∀ s : State, FrameBut [.delayTimer, .soundTimer, .trace, .inputs, .draws] s s.endCycle ∧
    s.endCycle.inputs = s.inputs.drop 1 ∧ s.endCycle.draws = s.draws + 1

/-- R126: at the end of every successful cycle each timer, as the instruction left it, falls by exactly 1 while above 0; a failing
cycle leaves both. -/
def Obligations.TimersFallOncePerCycle : Prop :=
  ∀ s : State,
    (∀ t, step s = .next t → ∃ i u, s.fetches i ∧ exec i { s with op := s.wordAtPc } = .next u ∧
      t.DT.toNat = u.DT.toNat - 1 ∧ t.ST.toNat = u.ST.toNat - 1) ∧
    (∀ inp f t, cycle inp s = (.err f, t) → t.DT = s.DT ∧ t.ST = s.ST)

/-- With `diag` a successful cycle appends one entry, dropping the oldest of 51 first; without, the trace stays
(40_cycle_driver.md section 2). What an entry holds is a free value (log 11). -/
def Obligations.TraceIsBoundedFifo : Prop :=
  ∀ s t : State, step s = .next t →
    (s.diag = false → t.trace = s.trace) ∧
    (s.diag = true → s.trace.length ≠ 51 → ∃ e, t.trace = s.trace ++ [e]) ∧
    (s.diag = true → s.trace.length = 51 → ∃ e, t.trace = s.trace.drop 1 ++ [e] ∧ t.trace.length = 51)

/-- R129: a successful cycle returns the word it fetched. -/
def Obligations.CycleReturnsFetchedWord : Prop :=
  ∀ (inp : CycleInput) (s t : State) (op : Word), cycle inp s = (.ok op, t) →
    s.pc.toNat ≤ 4094 ∧ op = s.wordAtPc ∧ fetch s = .ok op

/-- A failing cycle leaves the state exactly as it was, and every later cycle from it, whatever its inputs, fails in the same way
(40_cycle_driver.md section 2; the spec's own decision D8: "a failing cycle commits nothing", log 14). -/
def Obligations.FailingCycleCommitsNothing : Prop :=
  ∀ (inp : CycleInput) (s t : State) (f : Fault), cycle inp s = (.err f, t) →
    t = s ∧ ∀ inp', cycle inp' t = (.err f, t)

/-- A cycle fails exactly where the table of 60_exceptions.md section 1 says, with the failure it says, in the order fetch, decode,
execute, and otherwise has a next state (the table holds the spec's own decisions D10, D12, D17, D21, D28, logs 6, 8, 15, 16). -/
def Obligations.CycleFailsExactlyAsTabled : Prop :=
  ∀ s : State, (∀ f, cycleFailure s = some f → step s = .fault f) ∧ (s.Safe → ∃ t, step s = .next t)

/-- Every instruction completes in every state except where the failure table of 60_exceptions.md section 1 names a failure, which
it then raises (the table holds the spec's own decisions D10, D12, D17, D28, logs 6, 8, 15, 16). -/
def Obligations.InstructionFailsExactlyAsTabled : Prop :=
  ∀ (i : Instr) (s : State),
    (∀ f, execFailure i s = some f → exec i s = .fault f) ∧ (execFailure i s = none → ∃ t, exec i s = .next t)

/-- A cycle reads the keypad only for EX9E, EXA1 and FX0A, and the random byte only for CXKK (40_cycle_driver.md section 2, where
the spec marks it derived). -/
def Obligations.InputsReadOnlyByTheirInstructions : Prop :=
  ∀ (s : State) (k k' : Vector Bool 16) (r r' : Byte),
    (s.fetchesNo Instr.readsKeypad → cycle ⟨k, r⟩ s = cycle ⟨k', r⟩ s) ∧
    (s.fetchesNo Instr.readsRand → cycle ⟨k, r⟩ s = cycle ⟨k, r'⟩ s)

/-- Neither the trace nor the toggle affects any other state or the outcome (10_state.md section 9). -/
def Obligations.TraceNeverAffectsOtherState : Prop :=
  ∀ (s : State) (tr : List String) (d : Bool),
    onNext State.forgetTrace (step { s with trace := tr, diag := d }) = onNext State.forgetTrace (step s)

/-! ### The invariant -/

/-- The invariant holds at reset (its memory form is the model's, log 22). -/
def Obligations.ResetMeetsInvariant : Prop := State.reset.Inv

/-- Every step from a state that meets the invariant gives one that meets it. The bounds on I, pc and the stack entries are those
the spec marks derived (10_state.md sections 3, 4, 5); the canonical form of memory is the model's (log 22). -/
def Obligations.StepKeepsInvariant : Prop := ∀ s t : State, s.Inv → step s = .next t → t.Inv

/-- An instruction changes only the registers and the parts of the state listed for it (10_state.md sections 2 to 7, 20_memory.md
section 3). That FX55 and FX65 leave I is the spec's own decision D15 (log 17). -/
def Obligations.OnlyListedWritersWrite : Prop :=
  ∀ (i : Instr) (s t : State), exec i s = .next t → RegsBut (i.writesRegs s.config) s t ∧ FrameBut (.pc :: i.writes) s t

/-! ### Control flow -/

/-- R150. -/
def Obligations.RetPopsAndResumesAfterCall : Prop :=
  ∀ s : State,
    (s.stack = [] → exec .ret s = .fault .stackUnderflow) ∧
    (∀ rest r, s.stack = rest ++ [r] → ∃ t, exec .ret s = .next t ∧ t.stack = rest ∧ t.pc = r + 2 ∧
      FrameBut [.stack, .pc] s t)

/-- R151. -/
def Obligations.JpSetsPc : Prop :=
  ∀ (s : State) (nnn : Addr12), ∃ t, exec (.jp nnn) s = .next t ∧ t.pc.toNat = nnn.toNat ∧ FrameBut [.pc] s t

/-- CALL pushes its own address (41_control_flow.md section 1). The failure at a finite STACK_DEPTH is the spec's own decision D10
(log 6). -/
def Obligations.CallPushesItsAddressAndJumps : Prop :=
  ∀ (s : State) (nnn : Addr12),
    (s.config.stackDepth = some s.sp → exec (.call nnn) s = .fault .stackOverflow) ∧
    (s.config.stackDepth ≠ some s.sp → ∃ t, exec (.call nnn) s = .next t ∧ t.stack = s.stack ++ [s.pc] ∧
      t.pc.toNat = nnn.toNat ∧ FrameBut [.stack, .pc] s t)

/-- R153, R154. -/
def Obligations.ImmediateSkips : Prop :=
  ∀ (s : State) (x : Reg) (kk : Byte),
    (∃ t, exec (.seImm x kk) s = .next t ∧ SkipsIf (s.readV x = kk) s t) ∧
    (∃ t, exec (.sneImm x kk) s = .next t ∧ SkipsIf (s.readV x ≠ kk) s t)

/-- R155, R156. -/
def Obligations.RegisterSkips : Prop :=
  ∀ (s : State) (x y : Reg),
    (∃ t, exec (.seReg x y) s = .next t ∧ SkipsIf (s.readV x = s.readV y) s t) ∧
    (∃ t, exec (.sneReg x y) s = .next t ∧ SkipsIf (s.readV x ≠ s.readV y) s t)

/-- The sum is not masked to 12 bits (41_control_flow.md section 3; the spec's own decision D6, log 4). -/
def Obligations.JpV0AddsUnmasked : Prop :=
  ∀ (s : State) (nnn : Addr12), ∃ t, exec (.jpV0 nnn) s = .next t ∧ t.pc.toNat = nnn.toNat + (s.readV 0).toNat ∧
    FrameBut [.pc] s t

/-- A return from the routine a call entered, whatever else the routine changed, resumes after the call with the caller's
stack. -/
def Obligations.CallThenReturnResumesAfterCall : Prop :=
  ∀ (s t u : State) (nnn : Addr12), exec (.call nnn) s = .next t → u.stack = t.stack →
    ∃ v, exec .ret u = .next v ∧ v.pc = s.pc + 2 ∧ v.stack = s.stack

/-! ### ALU -/

/-- R180. -/
def Obligations.LdImmLoadsByte : Prop :=
  ∀ (s : State) (x : Reg) (kk : Byte), ∃ t, exec (.ldImm x kk) s = .next t ∧ WritesOnly x kk s t

/-- R181: no flag. -/
def Obligations.AddImmAddsWithoutFlag : Prop :=
  ∀ (s : State) (x : Reg) (kk : Byte), ∃ t, exec (.addImm x kk) s = .next t ∧
    WritesOnly x (BitVec.ofNat 8 (((s.readV x).toNat + kk.toNat) % 256)) s t

/-- R182. -/
def Obligations.LdRegMoves : Prop :=
  ∀ (s : State) (x y : Reg), ∃ t, exec (.ldReg x y) s = .next t ∧ WritesOnly x (s.readV y) s t

/-- R183, R184, R185: bit by bit, no flag. -/
def Obligations.LogicIsBitwiseWithoutFlag : Prop :=
  ∀ (s : State) (x y : Reg),
    (∃ t v, exec (.or x y) s = .next t ∧ WritesOnly x v s t ∧
      ∀ b, b < 8 → v.getLsbD b = ((s.readV x).getLsbD b || (s.readV y).getLsbD b)) ∧
    (∃ t v, exec (.and x y) s = .next t ∧ WritesOnly x v s t ∧
      ∀ b, b < 8 → v.getLsbD b = ((s.readV x).getLsbD b && (s.readV y).getLsbD b)) ∧
    (∃ t v, exec (.xor x y) s = .next t ∧ WritesOnly x v s t ∧
      ∀ b, b < 8 → v.getLsbD b = ((s.readV x).getLsbD b != (s.readV y).getLsbD b))

/-- VF is 1 iff the sum exceeds 255 (42_alu.md section 2). That with X = F the flag stays, and with Y = F the old VF is added, is the
spec's own decision D9 (log 13). -/
def Obligations.AddRegSetsCarry : Prop :=
  ∀ (s : State) (x y : Reg), ∃ t, exec (.addReg x y) s = .next t ∧
    WritesThenFlag x (BitVec.ofNat 8 (((s.readV x).toNat + (s.readV y).toNat) % 256))
      (if 255 < (s.readV x).toNat + (s.readV y).toNat then 1 else 0) s t

/-- VF is 1 iff VX < VY (42_alu.md section 2). That with X = F the flag stays, and with Y = F the old VF is subtracted, is the spec's
own decision D9 (log 13). -/
def Obligations.SubSetsBorrow : Prop :=
  ∀ (s : State) (x y : Reg), ∃ t, exec (.sub x y) s = .next t ∧
    WritesThenFlag x (BitVec.ofNat 8 (((s.readV x).toNat + 256 - (s.readV y).toNat) % 256))
      (if (s.readV x).toNat < (s.readV y).toNat then 1 else 0) s t

/-- VF is 1 iff VY < VX (42_alu.md section 2). That with X = F the flag stays, and with Y = F the old VF is the minuend, is the spec's
own decision D9 (log 13). -/
def Obligations.SubnSetsBorrow : Prop :=
  ∀ (s : State) (x y : Reg), ∃ t, exec (.subn x y) s = .next t ∧
    WritesThenFlag x (BitVec.ofNat 8 (((s.readV y).toNat + 256 - (s.readV x).toNat) % 256))
      (if (s.readV y).toNat < (s.readV x).toNat then 1 else 0) s t

/-- VF is the bit shifted out (42_alu.md section 2). That with X = F the shifted value stays is the spec's own decision D9
(log 13). -/
def Obligations.ShrShiftsOutLowBit : Prop :=
  ∀ (s : State) (x : Reg), ∃ t, exec (.shr x) s = .next t ∧
    FlagThenWrites x (BitVec.ofNat 8 ((s.readV x).toNat / 2)) (BitVec.ofNat 8 ((s.readV x).toNat % 2)) s t

/-- VF is 0x80 or 0 (42_alu.md section 2). That with X = F the shifted value stays is the spec's own decision D9 (log 13). -/
def Obligations.ShlKeepsHighBitUnnormalised : Prop :=
  ∀ (s : State) (x : Reg), ∃ t, exec (.shl x) s = .next t ∧
    FlagThenWrites x (BitVec.ofNat 8 (2 * (s.readV x).toNat % 256)) (if 128 ≤ (s.readV x).toNat then 0x80 else 0) s t

/-! ### Index register, stores and loads -/

/-- R210. -/
def Obligations.LdISetsIndex : Prop :=
  ∀ (s : State) (nnn : Addr12), ∃ t, exec (.ldI nnn) s = .next t ∧ t.I.toNat = nnn.toNat ∧ t.pc = s.pc + 2 ∧
    FrameBut [.index, .pc] s t

/-- R211: modulo 4096, no flag. -/
def Obligations.AddIWrapsAtTwelveBits : Prop :=
  ∀ (s : State) (x : Reg), ∃ t, exec (.addI x) s = .next t ∧
    t.I.toNat = (s.I.toNat + (s.readV x).toNat) % 4096 ∧ t.pc = s.pc + 2 ∧ FrameBut [.index, .pc] s t

/-- R212: digits 0 to 8 only. -/
def Obligations.LdFPointsAtGlyph : Prop :=
  ∀ (s : State) (x : Reg),
    ((s.readV x).toNat % 16 < 9 → ∃ t, exec (.ldF x) s = .next t ∧ t.I.toNat = 5 * ((s.readV x).toNat % 16) ∧
      t.pc = s.pc + 2 ∧ FrameBut [.index, .pc] s t) ∧
    (9 ≤ (s.readV x).toNat % 16 → exec (.ldF x) s = .fault (.unknownOpcode s.op))

/-- The digits at I, I+1, I+2, and where it fails (43_index_and_memory.md section 2; the spec's own decisions: the
payload D28, log 15, FONT_STORE_FAULTS D17, log 8). -/
def Obligations.LdBStoresDecimalDigits : Prop :=
  ∀ (s : State) (x : Reg),
    (s.I.toNat + 2 ≤ 4095 → ¬ s.fontStoreBlocked → ∃ t, exec (.ldB x) s = .next t ∧
      (t.byteAt s.I.toNat).toNat = (s.readV x).toNat / 100 ∧
      (t.byteAt (s.I.toNat + 1)).toNat = (s.readV x).toNat / 10 % 10 ∧
      (t.byteAt (s.I.toNat + 2)).toNat = (s.readV x).toNat % 10 ∧
      (∀ a, a < s.I.toNat ∨ s.I.toNat + 2 < a → t.byteAt a = s.byteAt a) ∧ t.pc = s.pc + 2 ∧
      FrameBut [.memory, .pc] s t) ∧
    (4095 < s.I.toNat + 2 → exec (.ldB x) s = .fault (.addressOutOfRange 4096)) ∧
    (s.fontStoreBlocked → exec (.ldB x) s = .fault (.addressOutOfRange s.I.toNat))

/-- V0..VX at I..I+X, I unchanged, and where it fails (43_index_and_memory.md section 2; the spec's own decisions: the
payload D28, log 15, FONT_STORE_FAULTS D17, log 8, I unchanged D15, log 17). -/
def Obligations.LdMIStoresRegisters : Prop :=
  ∀ (s : State) (x : Reg),
    (s.I.toNat + x.val ≤ 4095 → ¬ s.fontStoreBlocked → ∃ t, exec (.ldMI x) s = .next t ∧
      (∀ k : Reg, k ≤ x → t.byteAt (s.I.toNat + k.val) = s.readV k) ∧
      (∀ a, a < s.I.toNat ∨ s.I.toNat + x.val < a → t.byteAt a = s.byteAt a) ∧ t.pc = s.pc + 2 ∧
      FrameBut [.memory, .pc] s t) ∧
    (4095 < s.I.toNat + x.val → exec (.ldMI x) s = .fault (.addressOutOfRange 4096)) ∧
    (s.fontStoreBlocked → exec (.ldMI x) s = .fault (.addressOutOfRange s.I.toNat))

/-- V0..VX from I..I+X, I unchanged, and where it fails (43_index_and_memory.md section 2; the spec's own decisions: the payload
D28, log 15, I unchanged D15, log 17). -/
def Obligations.LdVILoadsRegisters : Prop :=
  ∀ (s : State) (x : Reg),
    (s.I.toNat + x.val ≤ 4095 → ∃ t, exec (.ldVI x) s = .next t ∧
      (∀ k : Reg, k ≤ x → t.readV k = s.byteAt (s.I.toNat + k.val)) ∧
      (∀ k : Reg, x < k → t.readV k = s.readV k) ∧ t.pc = s.pc + 2 ∧ FrameBut [.registers, .pc] s t) ∧
    (4095 < s.I.toNat + x.val → exec (.ldVI x) s = .fault (.addressOutOfRange 4096))

/-- Register-dump, then any change to the registers, then register-load at the same I restores V0..VX (95_test_vectors.md S3). That
I is unchanged is the spec's own decision D15 (log 17). -/
def Obligations.DumpThenLoadRestoresRegisters : Prop :=
  ∀ (s t : State) (x : Reg) (V' : Vector Byte 16), exec (.ldMI x) s = .next t →
    ∃ u, exec (.ldVI x) { t with V := V' } = .next u ∧ (∀ k : Reg, k ≤ x → u.readV k = s.readV k) ∧ u.I = s.I

/-! ### Display -/

/-- R240. -/
def Obligations.ClsClearsEveryCell : Prop :=
  ∀ s : State, ∃ t, exec .cls s = .next t ∧ (∀ k : Fin 2048, fbRead t k = false) ∧ t.pc = s.pc + 2 ∧
    FrameBut [.framebuffer, .pc] s t

/-- Exactly the cells under set sprite bits are toggled, VF is 1 iff one of them was set, and where it fails (44_display.md; the
spec's own decisions: the coordinates before VF is reset D9, log 13, the index arithmetic D19, log 18, the payload D28, log 15). -/
def Obligations.DrwTogglesSpriteCells : Prop :=
  ∀ (s : State) (x y : Reg) (n : Fin 16),
    ((0 < n.val → s.I.toNat + n.val - 1 ≤ 4095) → ∃ t, exec (.drw x y n) s = .next t ∧
      (∀ k : Fin 2048,
        (s.spriteLit (s.readV x).toNat (s.readV y).toNat n.val k.val → fbRead t k = !fbRead s k) ∧
        (¬ s.spriteLit (s.readV x).toNat (s.readV y).toNat n.val k.val → fbRead t k = fbRead s k)) ∧
      ((∃ k : Fin 2048, s.spriteLit (s.readV x).toNat (s.readV y).toNat n.val k.val ∧ fbRead s k = true) →
        t.readV VF = 1) ∧
      ((∀ k : Fin 2048, s.spriteLit (s.readV x).toNat (s.readV y).toNat n.val k.val → fbRead s k = false) →
        t.readV VF = 0) ∧
      RegsBut [VF] s t ∧ t.pc = s.pc + 2 ∧ FrameBut [.framebuffer, .registers, .pc] s t) ∧
    (0 < n.val → 4095 < s.I.toNat + n.val - 1 → exec (.drw x y n) s = .fault (.addressOutOfRange 4096))

/-- Drawing a sprite twice at the same coordinates restores the framebuffer; the second draw collides iff the sprite lights a
cell that was off before the first. (On a clear framebuffer: iff the sprite has a set bit, as 95_test_vectors.md S5 has it.) The index arithmetic is the spec's own
decision D19 (log 18), and so is that the coordinates are the values before VF is reset, D9 (log 13). -/
def Obligations.DrawTwiceRestoresFramebuffer : Prop :=
  ∀ (s t : State) (x y : Reg) (n : Fin 16), exec (.drw x y n) s = .next t →
    ∃ u, exec (.drw x y n) { t with V := s.V } = .next u ∧ u.fb = s.fb ∧
      (u.readV VF = 1 ↔ ∃ k : Fin 2048,
        s.spriteLit (s.readV x).toNat (s.readV y).toNat n.val k.val ∧ fbRead s k = false)

/-! ### Random byte, keypad and timers -/

/-- The cycle's random byte masked (45_input_timers_random.md section 1). The byte is the one the host passes, where it passes one;
how inputs are held is the model's choice (log 10). -/
def Obligations.RndMasksRandomByte : Prop :=
  ∀ (s : State) (x : Reg) (kk : Byte),
    (∃ t, exec (.rnd x kk) s = .next t ∧ WritesOnly x (s.rand &&& kk) s t) ∧
    (∀ inp rest, s.inputs = inp :: rest → s.rand = inp.rand)

/-- The key V[X] names decides the skip (45_input_timers_random.md section 2). That an index above 15 fails is the spec's own
decision D12 (log 16), that `true` means pressed D26 (log 23); how the host's snapshot is held is the model's choice (log 10). -/
def Obligations.KeySkips : Prop :=
  ∀ (s : State) (x : Reg),
    (∀ k : Reg, (s.readV x).toNat = k.val →
      (∃ t, exec (.skp x) s = .next t ∧ SkipsIf (s.key k = true) s t) ∧
      (∃ t, exec (.sknp x) s = .next t ∧ SkipsIf (s.key k = false) s t)) ∧
    (15 < (s.readV x).toNat →
      exec (.skp x) s = .fault (.keyIndexOutOfRange (s.readV x)) ∧
      exec (.sknp x) s = .fault (.keyIndexOutOfRange (s.readV x))) ∧
    (∀ inp rest, s.inputs = inp :: rest → ∀ k : Reg, s.key k = inp.keypad[k.val])

/-- R263. -/
def Obligations.LdVDTReadsDelayTimer : Prop :=
  ∀ (s : State) (x : Reg), ∃ t, exec (.ldVDT x) s = .next t ∧ WritesOnly x s.DT s t

/-- No advance while no key is pressed; else an advance (45_input_timers_random.md section 3). What V[X] gets is the spec's own
parameter WAIT_KEY_VX (D13), that `true` means pressed its decision D26 (log 23); the draw is a free byte of the model (log 7). -/
def Obligations.LdKWaitsForKey : Prop :=
  ∀ (s : State) (x : Reg),
    ((∀ k, s.key k = false) → ∃ t, exec (.ldK x) s = .next t ∧ FrameBut [] s t) ∧
    (∀ k, s.key k = true → (∀ j, j < k → s.key j = false) → ∃ t, exec (.ldK x) s = .next t ∧ t.pc = s.pc + 2 ∧
      (s.config.waitKeyVx = .unchanged → t.readV x = s.readV x) ∧
      (s.config.waitKeyVx = .lowestPressed → (t.readV x).toNat = k.val) ∧
      (s.config.waitKeyVx = .draw → t.readV x = Config.freeWaitKey s.draws) ∧
      RegsBut [x] s t ∧ FrameBut [.registers, .pc] s t)

/-- R265, R266: the instruction sets the timer, and the cycle's timer step then lowers it by 1 if it is not 0. -/
def Obligations.TimersAreSet : Prop :=
  ∀ (s : State) (x : Reg),
    (∃ t, exec (.ldDT x) s = .next t ∧ t.DT = s.readV x ∧ t.endCycle.DT.toNat = (s.readV x).toNat - 1 ∧ t.pc = s.pc + 2 ∧
      FrameBut [.delayTimer, .pc] s t) ∧
    (∃ t, exec (.ldST x) s = .next t ∧ t.ST = s.readV x ∧ t.endCycle.ST.toNat = (s.readV x).toNat - 1 ∧ t.pc = s.pc + 2 ∧
      FrameBut [.soundTimer, .pc] s t)

/-- A whole cycle of FX15, FX18 or FX07: the timer set to V[X] ends one lower unless it is 0, and FX07 reads DT before the
decrement (70_reset_and_hazards.md section 2, where the spec marks it derived). -/
def Obligations.TimerCyclesDecrementAfterExecute : Prop :=
  ∀ (s : State) (x : Reg),
    (s.fetches (.ldDT x) → ∃ t, step s = .next t ∧ t.DT.toNat = (s.readV x).toNat - 1 ∧ t.ST.toNat = s.ST.toNat - 1) ∧
    (s.fetches (.ldST x) → ∃ t, step s = .next t ∧ t.ST.toNat = (s.readV x).toNat - 1 ∧ t.DT.toNat = s.DT.toNat - 1) ∧
    (s.fetches (.ldVDT x) → ∃ t, step s = .next t ∧ t.readV x = s.DT ∧ t.DT.toNat = s.DT.toNat - 1)

/-- A cycle of FX0A with no key pressed: pc and the registers stay, both timers fall (70_reset_and_hazards.md section 2).
That op holds the word after the cycle is the model's choice (log 21), that `true` means pressed the spec's decision D26 (log 23). -/
def Obligations.WaitingCycleStillTicks : Prop :=
  ∀ (s : State) (x : Reg), s.fetches (.ldK x) → (∀ k, s.key k = false) →
    ∃ t, step s = .next t ∧ t.DT.toNat = s.DT.toNat - 1 ∧ t.ST.toNat = s.ST.toNat - 1 ∧ t.op = s.wordAtPc ∧
      FrameBut [.delayTimer, .soundTimer, .trace, .opcode, .inputs, .draws] s t
end

