-- ==== Sys2Proof/Laws/Decode.lean ====
section
/-! SUPPORT. The operand fields and the formats as numbers (30_encoding.md R91, R92): what the decoder reads from each format. -/

namespace Sys2Proof

/-! #### Fields -/

theorem fieldF_val (w : Word) : (fieldF w).val = w.toNat / 4096 := by
  have := w.isLt
  show (w.extractLsb' 12 4).toNat = _
  simp [Nat.shiftRight_eq_div_pow]; omega

theorem fieldX_val (w : Word) : (fieldX w).val = w.toNat / 256 % 16 := by
  show (w.extractLsb' 8 4).toNat = _
  simp [Nat.shiftRight_eq_div_pow]

theorem fieldY_val (w : Word) : (fieldY w).val = w.toNat / 16 % 16 := by
  show (w.extractLsb' 4 4).toNat = _
  simp [Nat.shiftRight_eq_div_pow]

theorem fieldN_val (w : Word) : (fieldN w).val = w.toNat % 16 := by
  show (w.extractLsb' 0 4).toNat = _
  simp

theorem fieldKK_toNat (w : Word) : (fieldKK w).toNat = w.toNat % 256 := by
  show (w.extractLsb' 0 8).toNat = _
  simp

theorem fieldNNN_toNat (w : Word) : (fieldNNN w).toNat = w.toNat % 4096 := by
  show (w.extractLsb' 0 12).toNat = _
  simp

/-! #### Formats -/

theorem nibble_toNat (n : Fin 16) : (nibble n).toNat = n.val := by simp [nibble]; omega

theorem two_pow_mul_or {a b : Nat} (i : Nat) (h : b < 2 ^ i) : (a * 2 ^ i) ||| b = a * 2 ^ i + b := by
  rw [Nat.mul_comm]; exact (Nat.two_pow_add_eq_or_of_lt h a).symm

theorem formatA_toNat (f : Fin 16) (nnn : Addr12) : (formatA f nnn).toNat = f.val * 4096 + nnn.toNat := by
  have := f.isLt; have := nnn.isLt
  simp only [formatA, BitVec.toNat_or, BitVec.toNat_shiftLeft, nibble_toNat, BitVec.toNat_setWidth, Nat.shiftLeft_eq]
  rw [Nat.mod_eq_of_lt (by omega), Nat.mod_eq_of_lt (by omega), two_pow_mul_or 12 (by omega)]
  ring

theorem formatXKK_toNat (f x : Fin 16) (kk : Byte) :
    (formatXKK f x kk).toNat = f.val * 4096 + x.val * 256 + kk.toNat := by
  have := f.isLt; have := kk.isLt; have := x.isLt
  simp only [formatXKK, BitVec.toNat_or, BitVec.toNat_shiftLeft, nibble_toNat, BitVec.toNat_setWidth, Nat.shiftLeft_eq]
  rw [Nat.mod_eq_of_lt (by omega), Nat.mod_eq_of_lt (by omega), Nat.mod_eq_of_lt (by omega), two_pow_mul_or 12 (by omega),
    show f.val * 2 ^ 12 + x.val * 2 ^ 8 = (f.val * 16 + x.val) * 2 ^ 8 by ring, two_pow_mul_or 8 (by omega)]
  ring

theorem formatXYN_toNat (f x y n : Fin 16) :
    (formatXYN f x y n).toNat = f.val * 4096 + x.val * 256 + y.val * 16 + n.val := by
  have := f.isLt; have := y.isLt; have := x.isLt; have := n.isLt
  simp only [formatXYN, BitVec.toNat_or, BitVec.toNat_shiftLeft, nibble_toNat, Nat.shiftLeft_eq]
  rw [Nat.mod_eq_of_lt (by omega), Nat.mod_eq_of_lt (by omega), Nat.mod_eq_of_lt (by omega), two_pow_mul_or 12 (by omega),
    show f.val * 2 ^ 12 + x.val * 2 ^ 8 = (f.val * 16 + x.val) * 2 ^ 8 by ring, two_pow_mul_or 8 (by omega),
    show (f.val * 16 + x.val) * 2 ^ 8 + y.val * 2 ^ 4 = ((f.val * 16 + x.val) * 16 + y.val) * 2 ^ 4 by ring,
    two_pow_mul_or 4 (by omega)]
  ring

/-! #### Each field of each format -/

theorem fieldF_formatA (f : Fin 16) (nnn : Addr12) : fieldF (formatA f nnn) = f := by
  have := nnn.isLt; apply Fin.ext; rw [fieldF_val, formatA_toNat]; omega
theorem fieldNNN_formatA (f : Fin 16) (nnn : Addr12) : fieldNNN (formatA f nnn) = nnn := by
  have := nnn.isLt; apply BitVec.eq_of_toNat_eq; rw [fieldNNN_toNat, formatA_toNat]; omega
theorem fieldF_formatXKK (f x : Fin 16) (kk : Byte) : fieldF (formatXKK f x kk) = f := by
  have := kk.isLt; apply Fin.ext; rw [fieldF_val, formatXKK_toNat]; omega
theorem fieldX_formatXKK (f x : Fin 16) (kk : Byte) : fieldX (formatXKK f x kk) = x := by
  have := kk.isLt; apply Fin.ext; rw [fieldX_val, formatXKK_toNat]; omega
theorem fieldKK_formatXKK (f x : Fin 16) (kk : Byte) : fieldKK (formatXKK f x kk) = kk := by
  have := kk.isLt; apply BitVec.eq_of_toNat_eq; rw [fieldKK_toNat, formatXKK_toNat]; omega
theorem fieldF_formatXYN (f x y n : Fin 16) : fieldF (formatXYN f x y n) = f := by
  apply Fin.ext; rw [fieldF_val, formatXYN_toNat]; omega
theorem fieldX_formatXYN (f x y n : Fin 16) : fieldX (formatXYN f x y n) = x := by
  apply Fin.ext; rw [fieldX_val, formatXYN_toNat]; omega
theorem fieldY_formatXYN (f x y n : Fin 16) : fieldY (formatXYN f x y n) = y := by
  apply Fin.ext; rw [fieldY_val, formatXYN_toNat]; omega
theorem fieldN_formatXYN (f x y n : Fin 16) : fieldN (formatXYN f x y n) = n := by
  apply Fin.ext; rw [fieldN_val, formatXYN_toNat]; omega

end Sys2Proof
end

