-- ==== Sys2Proof/Laws/State.lean ====
section
/-! SUPPORT. One lemma per field per update of State (all true by rfl, tagged simp), and the laws of the register file and of
frames, so that no proof unfolds a record update. -/

namespace Sys2Proof.Machine

/-! #### `State.writeV` -/

@[simp] theorem State.writeV_M (s : State) (x : Reg) (b : Byte) : (s.writeV x b).M = s.M := rfl
@[simp] theorem State.writeV_I (s : State) (x : Reg) (b : Byte) : (s.writeV x b).I = s.I := rfl
@[simp] theorem State.writeV_pc (s : State) (x : Reg) (b : Byte) : (s.writeV x b).pc = s.pc := rfl
@[simp] theorem State.writeV_stack (s : State) (x : Reg) (b : Byte) : (s.writeV x b).stack = s.stack := rfl
@[simp] theorem State.writeV_DT (s : State) (x : Reg) (b : Byte) : (s.writeV x b).DT = s.DT := rfl
@[simp] theorem State.writeV_ST (s : State) (x : Reg) (b : Byte) : (s.writeV x b).ST = s.ST := rfl
@[simp] theorem State.writeV_fb (s : State) (x : Reg) (b : Byte) : (s.writeV x b).fb = s.fb := rfl
@[simp] theorem State.writeV_op (s : State) (x : Reg) (b : Byte) : (s.writeV x b).op = s.op := rfl
@[simp] theorem State.writeV_trace (s : State) (x : Reg) (b : Byte) : (s.writeV x b).trace = s.trace := rfl
@[simp] theorem State.writeV_diag (s : State) (x : Reg) (b : Byte) : (s.writeV x b).diag = s.diag := rfl
@[simp] theorem State.writeV_config (s : State) (x : Reg) (b : Byte) : (s.writeV x b).config = s.config := rfl
@[simp] theorem State.writeV_inputs (s : State) (x : Reg) (b : Byte) : (s.writeV x b).inputs = s.inputs := rfl
@[simp] theorem State.writeV_draws (s : State) (x : Reg) (b : Byte) : (s.writeV x b).draws = s.draws := rfl
@[simp] theorem State.writeV_byteAt (s : State) (x : Reg) (b : Byte) (a : Nat) : (s.writeV x b).byteAt a = s.byteAt a := rfl

/-! #### `State.writeVF` -/

@[simp] theorem State.writeVF_M (s : State) (b : Byte) : (s.writeVF b).M = s.M := rfl
@[simp] theorem State.writeVF_I (s : State) (b : Byte) : (s.writeVF b).I = s.I := rfl
@[simp] theorem State.writeVF_pc (s : State) (b : Byte) : (s.writeVF b).pc = s.pc := rfl
@[simp] theorem State.writeVF_stack (s : State) (b : Byte) : (s.writeVF b).stack = s.stack := rfl
@[simp] theorem State.writeVF_DT (s : State) (b : Byte) : (s.writeVF b).DT = s.DT := rfl
@[simp] theorem State.writeVF_ST (s : State) (b : Byte) : (s.writeVF b).ST = s.ST := rfl
@[simp] theorem State.writeVF_fb (s : State) (b : Byte) : (s.writeVF b).fb = s.fb := rfl
@[simp] theorem State.writeVF_op (s : State) (b : Byte) : (s.writeVF b).op = s.op := rfl
@[simp] theorem State.writeVF_trace (s : State) (b : Byte) : (s.writeVF b).trace = s.trace := rfl
@[simp] theorem State.writeVF_diag (s : State) (b : Byte) : (s.writeVF b).diag = s.diag := rfl
@[simp] theorem State.writeVF_config (s : State) (b : Byte) : (s.writeVF b).config = s.config := rfl
@[simp] theorem State.writeVF_inputs (s : State) (b : Byte) : (s.writeVF b).inputs = s.inputs := rfl
@[simp] theorem State.writeVF_draws (s : State) (b : Byte) : (s.writeVF b).draws = s.draws := rfl
@[simp] theorem State.writeVF_byteAt (s : State) (b : Byte) (a : Nat) : (s.writeVF b).byteAt a = s.byteAt a := rfl

/-! #### `State.advance` -/

@[simp] theorem State.advance_M (s : State) : s.advance.M = s.M := rfl
@[simp] theorem State.advance_V (s : State) : s.advance.V = s.V := rfl
@[simp] theorem State.advance_I (s : State) : s.advance.I = s.I := rfl
@[simp] theorem State.advance_pc (s : State) : s.advance.pc = s.pc + 2 := rfl
@[simp] theorem State.advance_stack (s : State) : s.advance.stack = s.stack := rfl
@[simp] theorem State.advance_DT (s : State) : s.advance.DT = s.DT := rfl
@[simp] theorem State.advance_ST (s : State) : s.advance.ST = s.ST := rfl
@[simp] theorem State.advance_fb (s : State) : s.advance.fb = s.fb := rfl
@[simp] theorem State.advance_op (s : State) : s.advance.op = s.op := rfl
@[simp] theorem State.advance_trace (s : State) : s.advance.trace = s.trace := rfl
@[simp] theorem State.advance_diag (s : State) : s.advance.diag = s.diag := rfl
@[simp] theorem State.advance_config (s : State) : s.advance.config = s.config := rfl
@[simp] theorem State.advance_inputs (s : State) : s.advance.inputs = s.inputs := rfl
@[simp] theorem State.advance_draws (s : State) : s.advance.draws = s.draws := rfl
@[simp] theorem State.advance_readV (s : State) (r : Reg) : s.advance.readV r = s.readV r := rfl
@[simp] theorem State.advance_byteAt (s : State) (a : Nat) : s.advance.byteAt a = s.byteAt a := rfl

/-! #### `State.skipIf` -/

@[simp] theorem State.skipIf_M (s : State) (c : Bool) : (s.skipIf c).M = s.M := rfl
@[simp] theorem State.skipIf_V (s : State) (c : Bool) : (s.skipIf c).V = s.V := rfl
@[simp] theorem State.skipIf_I (s : State) (c : Bool) : (s.skipIf c).I = s.I := rfl
@[simp] theorem State.skipIf_pc (s : State) (c : Bool) : (s.skipIf c).pc = if c then s.pc + 4 else s.pc + 2 := rfl
@[simp] theorem State.skipIf_stack (s : State) (c : Bool) : (s.skipIf c).stack = s.stack := rfl
@[simp] theorem State.skipIf_DT (s : State) (c : Bool) : (s.skipIf c).DT = s.DT := rfl
@[simp] theorem State.skipIf_ST (s : State) (c : Bool) : (s.skipIf c).ST = s.ST := rfl
@[simp] theorem State.skipIf_fb (s : State) (c : Bool) : (s.skipIf c).fb = s.fb := rfl
@[simp] theorem State.skipIf_op (s : State) (c : Bool) : (s.skipIf c).op = s.op := rfl
@[simp] theorem State.skipIf_trace (s : State) (c : Bool) : (s.skipIf c).trace = s.trace := rfl
@[simp] theorem State.skipIf_diag (s : State) (c : Bool) : (s.skipIf c).diag = s.diag := rfl
@[simp] theorem State.skipIf_config (s : State) (c : Bool) : (s.skipIf c).config = s.config := rfl
@[simp] theorem State.skipIf_inputs (s : State) (c : Bool) : (s.skipIf c).inputs = s.inputs := rfl
@[simp] theorem State.skipIf_draws (s : State) (c : Bool) : (s.skipIf c).draws = s.draws := rfl
@[simp] theorem State.skipIf_readV (s : State) (c : Bool) (r : Reg) : (s.skipIf c).readV r = s.readV r := rfl
@[simp] theorem State.skipIf_byteAt (s : State) (c : Bool) (a : Nat) : (s.skipIf c).byteAt a = s.byteAt a := rfl

/-! #### `State.jump` -/

@[simp] theorem State.jump_M (s : State) (w : Word) : (s.jump w).M = s.M := rfl
@[simp] theorem State.jump_V (s : State) (w : Word) : (s.jump w).V = s.V := rfl
@[simp] theorem State.jump_I (s : State) (w : Word) : (s.jump w).I = s.I := rfl
@[simp] theorem State.jump_pc (s : State) (w : Word) : (s.jump w).pc = w := rfl
@[simp] theorem State.jump_stack (s : State) (w : Word) : (s.jump w).stack = s.stack := rfl
@[simp] theorem State.jump_DT (s : State) (w : Word) : (s.jump w).DT = s.DT := rfl
@[simp] theorem State.jump_ST (s : State) (w : Word) : (s.jump w).ST = s.ST := rfl
@[simp] theorem State.jump_fb (s : State) (w : Word) : (s.jump w).fb = s.fb := rfl
@[simp] theorem State.jump_op (s : State) (w : Word) : (s.jump w).op = s.op := rfl
@[simp] theorem State.jump_trace (s : State) (w : Word) : (s.jump w).trace = s.trace := rfl
@[simp] theorem State.jump_diag (s : State) (w : Word) : (s.jump w).diag = s.diag := rfl
@[simp] theorem State.jump_config (s : State) (w : Word) : (s.jump w).config = s.config := rfl
@[simp] theorem State.jump_inputs (s : State) (w : Word) : (s.jump w).inputs = s.inputs := rfl
@[simp] theorem State.jump_draws (s : State) (w : Word) : (s.jump w).draws = s.draws := rfl
@[simp] theorem State.jump_readV (s : State) (w : Word) (r : Reg) : (s.jump w).readV r = s.readV r := rfl
@[simp] theorem State.jump_byteAt (s : State) (w : Word) (a : Nat) : (s.jump w).byteAt a = s.byteAt a := rfl

/-! #### `State.latch` -/

@[simp] theorem State.latch_M (s : State) (w : Word) : (s.latch w).M = s.M := rfl
@[simp] theorem State.latch_V (s : State) (w : Word) : (s.latch w).V = s.V := rfl
@[simp] theorem State.latch_I (s : State) (w : Word) : (s.latch w).I = s.I := rfl
@[simp] theorem State.latch_pc (s : State) (w : Word) : (s.latch w).pc = s.pc := rfl
@[simp] theorem State.latch_stack (s : State) (w : Word) : (s.latch w).stack = s.stack := rfl
@[simp] theorem State.latch_DT (s : State) (w : Word) : (s.latch w).DT = s.DT := rfl
@[simp] theorem State.latch_ST (s : State) (w : Word) : (s.latch w).ST = s.ST := rfl
@[simp] theorem State.latch_fb (s : State) (w : Word) : (s.latch w).fb = s.fb := rfl
@[simp] theorem State.latch_op (s : State) (w : Word) : (s.latch w).op = w := rfl
@[simp] theorem State.latch_trace (s : State) (w : Word) : (s.latch w).trace = s.trace := rfl
@[simp] theorem State.latch_diag (s : State) (w : Word) : (s.latch w).diag = s.diag := rfl
@[simp] theorem State.latch_config (s : State) (w : Word) : (s.latch w).config = s.config := rfl
@[simp] theorem State.latch_inputs (s : State) (w : Word) : (s.latch w).inputs = s.inputs := rfl
@[simp] theorem State.latch_draws (s : State) (w : Word) : (s.latch w).draws = s.draws := rfl
@[simp] theorem State.latch_readV (s : State) (w : Word) (r : Reg) : (s.latch w).readV r = s.readV r := rfl
@[simp] theorem State.latch_byteAt (s : State) (w : Word) (a : Nat) : (s.latch w).byteAt a = s.byteAt a := rfl

/-! #### `State.endCycle` -/

@[simp] theorem State.endCycle_M (s : State) : s.endCycle.M = s.M := rfl
@[simp] theorem State.endCycle_V (s : State) : s.endCycle.V = s.V := rfl
@[simp] theorem State.endCycle_I (s : State) : s.endCycle.I = s.I := rfl
@[simp] theorem State.endCycle_pc (s : State) : s.endCycle.pc = s.pc := rfl
@[simp] theorem State.endCycle_stack (s : State) : s.endCycle.stack = s.stack := rfl
@[simp] theorem State.endCycle_DT (s : State) : s.endCycle.DT = timerTick s.DT := rfl
@[simp] theorem State.endCycle_ST (s : State) : s.endCycle.ST = timerTick s.ST := rfl
@[simp] theorem State.endCycle_fb (s : State) : s.endCycle.fb = s.fb := rfl
@[simp] theorem State.endCycle_op (s : State) : s.endCycle.op = s.op := rfl
@[simp] theorem State.endCycle_trace (s : State) : s.endCycle.trace = if s.diag then appendTrace s.trace (Config.freeTraceLine s.draws) else s.trace := rfl
@[simp] theorem State.endCycle_diag (s : State) : s.endCycle.diag = s.diag := rfl
@[simp] theorem State.endCycle_config (s : State) : s.endCycle.config = s.config := rfl
@[simp] theorem State.endCycle_inputs (s : State) : s.endCycle.inputs = s.inputs.tail := rfl
@[simp] theorem State.endCycle_draws (s : State) : s.endCycle.draws = s.draws + 1 := rfl
@[simp] theorem State.endCycle_readV (s : State) (r : Reg) : s.endCycle.readV r = s.readV r := rfl
@[simp] theorem State.endCycle_byteAt (s : State) (a : Nat) : s.endCycle.byteAt a = s.byteAt a := rfl

/-! #### Reads of a state with one field replaced -/

@[simp] theorem readV_with_M (s : State) (m : Memory) (r : Reg) : State.readV { s with M := m } r = s.readV r := rfl
@[simp] theorem readV_with_I (s : State) (w : Word) (r : Reg) : State.readV { s with I := w } r = s.readV r := rfl
@[simp] theorem byteAt_with_I (s : State) (w : Word) (i : Nat) : State.byteAt { s with I := w } i = s.byteAt i := rfl
@[simp] theorem readV_with_stack (s : State) (l : List Word) (r : Reg) : State.readV { s with stack := l } r = s.readV r := rfl
@[simp] theorem byteAt_with_stack (s : State) (l : List Word) (i : Nat) : State.byteAt { s with stack := l } i = s.byteAt i := rfl
@[simp] theorem readV_with_DT (s : State) (b : Byte) (r : Reg) : State.readV { s with DT := b } r = s.readV r := rfl
@[simp] theorem byteAt_with_DT (s : State) (b : Byte) (i : Nat) : State.byteAt { s with DT := b } i = s.byteAt i := rfl
@[simp] theorem readV_with_ST (s : State) (b : Byte) (r : Reg) : State.readV { s with ST := b } r = s.readV r := rfl
@[simp] theorem byteAt_with_ST (s : State) (b : Byte) (i : Nat) : State.byteAt { s with ST := b } i = s.byteAt i := rfl
@[simp] theorem readV_with_fb (s : State) (g : Framebuffer) (r : Reg) : State.readV { s with fb := g } r = s.readV r := rfl
@[simp] theorem byteAt_with_fb (s : State) (g : Framebuffer) (i : Nat) : State.byteAt { s with fb := g } i = s.byteAt i := rfl
@[simp] theorem readV_with_op (s : State) (w : Word) (r : Reg) : State.readV { s with op := w } r = s.readV r := rfl
@[simp] theorem byteAt_with_op (s : State) (w : Word) (i : Nat) : State.byteAt { s with op := w } i = s.byteAt i := rfl
@[simp] theorem readV_with_trace (s : State) (l : List String) (r : Reg) : State.readV { s with trace := l } r = s.readV r := rfl
@[simp] theorem byteAt_with_trace (s : State) (l : List String) (i : Nat) : State.byteAt { s with trace := l } i = s.byteAt i := rfl
@[simp] theorem readV_with_diag (s : State) (d : Bool) (r : Reg) : State.readV { s with diag := d } r = s.readV r := rfl
@[simp] theorem byteAt_with_diag (s : State) (d : Bool) (i : Nat) : State.byteAt { s with diag := d } i = s.byteAt i := rfl
@[simp] theorem readV_with_inputs (s : State) (l : List CycleInput) (r : Reg) : State.readV { s with inputs := l } r = s.readV r := rfl
@[simp] theorem byteAt_with_inputs (s : State) (l : List CycleInput) (i : Nat) : State.byteAt { s with inputs := l } i = s.byteAt i := rfl
@[simp] theorem readV_with_draws (s : State) (n : Nat) (r : Reg) : State.readV { s with draws := n } r = s.readV r := rfl
@[simp] theorem byteAt_with_draws (s : State) (n : Nat) (i : Nat) : State.byteAt { s with draws := n } i = s.byteAt i := rfl
@[simp] theorem readV_with_pc (s : State) (w : Word) (r : Reg) : State.readV { s with pc := w } r = s.readV r := rfl
@[simp] theorem byteAt_with_pc (s : State) (w : Word) (i : Nat) : State.byteAt { s with pc := w } i = s.byteAt i := rfl

/-! #### The register file -/

@[simp] theorem State.readV_writeV_same (s : State) (x : Reg) (b : Byte) : (s.writeV x b).readV x = b := by
  show (s.V.set x.val b x.isLt)[x.val] = b
  simp

theorem State.readV_writeV_ne (s : State) {x r : Reg} (b : Byte) (h : r ≠ x) : (s.writeV x b).readV r = s.readV r := by
  have hv : x.val ≠ r.val := fun e => h (Fin.ext e.symm)
  show (s.V.set x.val b x.isLt)[r.val] = s.V[r.val]
  simp [hv]

/-- Reading any register after writing one. -/
theorem State.readV_writeV (s : State) (x r : Reg) (b : Byte) :
    (s.writeV x b).readV r = if r = x then b else s.readV r := by
  by_cases h : r = x
  · simp [h]
  · simp [h, State.readV_writeV_ne s b h]

/-- Reading any register after writing the flag. -/
theorem State.readV_writeVF (s : State) (r : Reg) (b : Byte) :
    (s.writeVF b).readV r = if r = VF then b else s.readV r := State.readV_writeV s VF r b

/-- A run of register writes from V[k] on touches V[k..k+n-1] only, each with its byte. -/
theorem State.readV_writeVs (s : State) (k : Nat) (bs : List Byte) (hk : k + bs.length ≤ 16) (r : Reg) :
    (s.writeVs k bs).readV r = if h : k ≤ r.val ∧ r.val < k + bs.length then bs[r.val - k]'(by omega) else s.readV r := by
  induction bs generalizing s k with
  | nil => simp [State.writeVs]
  | cons b bs ih =>
    have hlen : k + 1 + bs.length ≤ 16 := by simpa [Nat.add_assoc, Nat.add_comm 1] using hk
    have hk16 : k % 16 = k := Nat.mod_eq_of_lt (by omega)
    have hr := r.isLt
    rw [State.writeVs, ih _ _ hlen]
    by_cases h1 : k + 1 ≤ r.val ∧ r.val < k + 1 + bs.length
    · have h2 : k ≤ r.val ∧ r.val < k + (b :: bs).length := by simp only [List.length_cons]; omega
      have e : r.val - k = (r.val - (k + 1)) + 1 := by omega
      simp only [dif_pos h1, dif_pos h2, e, List.getElem_cons_succ]
    · simp only [dif_neg h1, State.readV_writeV]
      by_cases h3 : r.val = k
      · have h2 : k ≤ r.val ∧ r.val < k + (b :: bs).length := by simp only [List.length_cons]; omega
        have e : r = Fin.ofNat 16 k := Fin.ext (by simp [Fin.ofNat, hk16, h3])
        have e0 : r.val - k = 0 := by omega
        simp only [dif_pos h2, if_pos e, e0, List.getElem_cons_zero]
      · have h2 : ¬ (k ≤ r.val ∧ r.val < k + (b :: bs).length) := by simp only [List.length_cons]; omega
        have e : r ≠ Fin.ofNat 16 k := fun e => h3 (by rw [e]; simp [Fin.ofNat, hk16])
        simp only [dif_neg h2, if_neg e]

@[simp] theorem State.writeVs_M (s : State) (k : Nat) (bs : List Byte) : (s.writeVs k bs).M = s.M := by
  induction bs generalizing s k with
  | nil => rfl
  | cons b bs ih => simp [State.writeVs, ih]
@[simp] theorem State.writeVs_I (s : State) (k : Nat) (bs : List Byte) : (s.writeVs k bs).I = s.I := by
  induction bs generalizing s k with
  | nil => rfl
  | cons b bs ih => simp [State.writeVs, ih]
@[simp] theorem State.writeVs_pc (s : State) (k : Nat) (bs : List Byte) : (s.writeVs k bs).pc = s.pc := by
  induction bs generalizing s k with
  | nil => rfl
  | cons b bs ih => simp [State.writeVs, ih]
@[simp] theorem State.writeVs_stack (s : State) (k : Nat) (bs : List Byte) : (s.writeVs k bs).stack = s.stack := by
  induction bs generalizing s k with
  | nil => rfl
  | cons b bs ih => simp [State.writeVs, ih]
@[simp] theorem State.writeVs_DT (s : State) (k : Nat) (bs : List Byte) : (s.writeVs k bs).DT = s.DT := by
  induction bs generalizing s k with
  | nil => rfl
  | cons b bs ih => simp [State.writeVs, ih]
@[simp] theorem State.writeVs_ST (s : State) (k : Nat) (bs : List Byte) : (s.writeVs k bs).ST = s.ST := by
  induction bs generalizing s k with
  | nil => rfl
  | cons b bs ih => simp [State.writeVs, ih]
@[simp] theorem State.writeVs_fb (s : State) (k : Nat) (bs : List Byte) : (s.writeVs k bs).fb = s.fb := by
  induction bs generalizing s k with
  | nil => rfl
  | cons b bs ih => simp [State.writeVs, ih]
@[simp] theorem State.writeVs_op (s : State) (k : Nat) (bs : List Byte) : (s.writeVs k bs).op = s.op := by
  induction bs generalizing s k with
  | nil => rfl
  | cons b bs ih => simp [State.writeVs, ih]
@[simp] theorem State.writeVs_trace (s : State) (k : Nat) (bs : List Byte) : (s.writeVs k bs).trace = s.trace := by
  induction bs generalizing s k with
  | nil => rfl
  | cons b bs ih => simp [State.writeVs, ih]
@[simp] theorem State.writeVs_diag (s : State) (k : Nat) (bs : List Byte) : (s.writeVs k bs).diag = s.diag := by
  induction bs generalizing s k with
  | nil => rfl
  | cons b bs ih => simp [State.writeVs, ih]
@[simp] theorem State.writeVs_config (s : State) (k : Nat) (bs : List Byte) : (s.writeVs k bs).config = s.config := by
  induction bs generalizing s k with
  | nil => rfl
  | cons b bs ih => simp [State.writeVs, ih]
@[simp] theorem State.writeVs_inputs (s : State) (k : Nat) (bs : List Byte) : (s.writeVs k bs).inputs = s.inputs := by
  induction bs generalizing s k with
  | nil => rfl
  | cons b bs ih => simp [State.writeVs, ih]
@[simp] theorem State.writeVs_draws (s : State) (k : Nat) (bs : List Byte) : (s.writeVs k bs).draws = s.draws := by
  induction bs generalizing s k with
  | nil => rfl
  | cons b bs ih => simp [State.writeVs, ih]

@[simp] theorem State.writeVs_byteAt (s : State) (k : Nat) (bs : List Byte) (a : Nat) :
    (s.writeVs k bs).byteAt a = s.byteAt a := by simp [State.byteAt]

@[simp] theorem State.length_firstVs (s : State) (x : Reg) : (s.firstVs x).length = x.val + 1 := by
  have := x.isLt
  simp [State.firstVs]

/-- The k-th stored register. -/
theorem State.getElem_firstVs (s : State) (x : Reg) (k : Nat) (h : k < (s.firstVs x).length) :
    (s.firstVs x)[k] = s.readV ⟨k, by have := x.isLt; rw [State.length_firstVs] at h; omega⟩ := by
  simp [State.firstVs, State.readV, Vector.get]

/-! #### Frames -/

/-- Nothing changes. -/
theorem FrameBut.refl (parts : List Part) (s : State) : FrameBut parts s s := fun p _ => by cases p <;> simp [Part.same]

/-- A longer list of changed parts says less. -/
theorem FrameBut.mono {ps qs : List Part} {s t : State} (h : FrameBut ps s t) (hsub : ∀ p ∈ ps, p ∈ qs) : FrameBut qs s t :=
  fun p hp => h p fun hm => hp (hsub p hm)

end Sys2Proof.Machine
end

