-- ==== Sys2Proof/Laws/Memory.lean ====
section
/-! SUPPORT. The laws of memory: what a read gives after a write, and that every memory operation keeps the canonical form. -/

namespace Sys2Proof.Machine

/-! #### Lookup after listing and unlisting -/

theorem Memory.find_put (m : Memory) (a c : Nat) (b : Byte) :
    Memory.find (Memory.put m a b) c = if c = a then some b else Memory.find m c := by
  induction m with
  | nil => simp [Memory.put, Memory.find, eq_comm]
  | cons e m ih =>
    obtain ⟨k, v⟩ := e
    by_cases h1 : a < k
    · simp [Memory.put, Memory.find, h1, eq_comm (a := a)]
    · by_cases h2 : a = k
      · subst h2
        simp only [Memory.put, Nat.lt_irrefl, if_false, if_true, Memory.find, eq_comm (a := a)]
        by_cases h3 : c = a <;> simp [h3]
      · simp only [Memory.put, h1, h2, if_false, Memory.find, ih]
        by_cases h3 : k = c
        · have : c ≠ a := fun e => h2 (by omega)
          simp [h3, this]
        · simp [h3]

theorem Memory.find_remove (m : Memory) (a c : Nat) :
    Memory.find (Memory.remove m a) c = if c = a then none else Memory.find m c := by
  induction m with
  | nil => simp [Memory.remove, Memory.find]
  | cons e m ih =>
    obtain ⟨k, v⟩ := e
    by_cases h1 : k = a
    · subst h1
      simp only [Memory.remove, if_true, Memory.find, ih]
      by_cases h2 : c = k
      · simp [h2]
      · simp [h2, Ne.symm h2]
    · simp only [Memory.remove, h1, if_false, Memory.find, ih]
      by_cases h2 : k = c
      · have : c ≠ a := fun e => h1 (by omega)
        simp [h2, this]
      · simp [h2]

/-- A read after a write: the byte written at its address, every other byte as before. -/
theorem Memory.read_write (font : Vector Byte 80) (m : Memory) (a c : Nat) (b : Byte) :
    Memory.read font (Memory.write font m a b) c = if c = a then b else Memory.read font m c := by
  unfold Memory.read Memory.write
  by_cases hb : b = unlisted font a
  · rw [if_pos hb, Memory.find_remove]
    by_cases h : c = a <;> simp [h, hb]
  · rw [if_neg hb, Memory.find_put]
    by_cases h : c = a <;> simp [h]

/-! #### The canonical form is kept -/

theorem Memory.mem_put {m : Memory} {a : Nat} {b : Byte} {e : Host.Cell} (h : e ∈ Memory.put m a b) :
    e = (a, b) ∨ e ∈ m := by
  induction m with
  | nil => simpa [Memory.put] using h
  | cons e' m ih =>
    obtain ⟨k, v⟩ := e'
    simp only [Memory.put] at h
    split at h
    · simpa using h
    · split at h
      · rcases List.mem_cons.1 h with h | h
        · exact .inl h
        · exact .inr (List.mem_cons_of_mem _ h)
      · rcases List.mem_cons.1 h with h | h
        · exact .inr (by simp [h])
        · exact (ih h).imp id (List.mem_cons_of_mem _)

theorem Memory.mem_remove {m : Memory} {a : Nat} {e : Host.Cell} (h : e ∈ Memory.remove m a) : e ∈ m := by
  induction m with
  | nil => simp [Memory.remove] at h
  | cons e' m ih =>
    obtain ⟨k, v⟩ := e'
    simp only [Memory.remove] at h
    split at h
    · exact List.mem_cons_of_mem _ (ih h)
    · rcases List.mem_cons.1 h with h | h
      · simp [h]
      · exact List.mem_cons_of_mem _ (ih h)

theorem Memory.sorted_put (m : Memory) (a : Nat) (b : Byte) (hs : (m.map Prod.fst).Pairwise (· < ·)) :
    ((Memory.put m a b).map Prod.fst).Pairwise (· < ·) := by
  induction m with
  | nil => simp [Memory.put]
  | cons e m ih =>
    obtain ⟨k, v⟩ := e
    have hs' := hs
    simp only [List.map_cons, List.pairwise_cons] at hs'
    simp only [Memory.put]
    split
    · rename_i hlt
      simp only [List.map_cons, List.pairwise_cons]
      refine ⟨fun c hc => ?_, hs'⟩
      rcases List.mem_cons.1 hc with h | h
      · omega
      · have := hs'.1 c h; omega
    · split
      · rename_i heq
        subst heq
        simpa using hs'
      · rename_i hlt hne
        simp only [List.map_cons, List.pairwise_cons]
        refine ⟨fun c hc => ?_, ih hs'.2⟩
        obtain ⟨e, he, rfl⟩ := List.mem_map.1 hc
        rcases Memory.mem_put he with h | h
        · subst h; show k < a; omega
        · exact hs'.1 e.1 (List.mem_map_of_mem h)

theorem Memory.sorted_remove (m : Memory) (a : Nat) (hs : (m.map Prod.fst).Pairwise (· < ·)) :
    ((Memory.remove m a).map Prod.fst).Pairwise (· < ·) := by
  induction m with
  | nil => simp [Memory.remove]
  | cons e m ih =>
    obtain ⟨k, v⟩ := e
    simp only [List.map_cons, List.pairwise_cons] at hs
    simp only [Memory.remove]
    split
    · exact ih hs.2
    · simp only [List.map_cons, List.pairwise_cons]
      refine ⟨fun c hc => ?_, ih hs.2⟩
      obtain ⟨e, he, rfl⟩ := List.mem_map.1 hc
      exact hs.1 e.1 (List.mem_map_of_mem (Memory.mem_remove he))

/-- A write keeps the canonical form. -/
theorem Memory.wf_write {font : Vector Byte 80} {m : Memory} (h : Memory.wf font m) {a : Nat} (b : Byte) (ha : a < memSize) :
    Memory.wf font (Memory.write font m a b) := by
  unfold Memory.write
  split
  · exact ⟨Memory.sorted_remove m a h.1, fun c hc => h.2 c (Memory.mem_remove hc)⟩
  · rename_i hb
    refine ⟨Memory.sorted_put m a b h.1, fun c hc => ?_⟩
    rcases Memory.mem_put hc with hc | hc
    · subst hc; exact ⟨ha, hb⟩
    · exact h.2 c hc

/-- Copying bytes that fit keeps the canonical form. -/
theorem Memory.wf_load {font : Vector Byte 80} {m : Memory} (h : Memory.wf font m) (a : Nat) (bs : List Byte)
    (hfit : a + bs.length ≤ memSize) : Memory.wf font (Memory.load font m a bs) := by
  induction bs generalizing m a with
  | nil => exact h
  | cons b bs ih =>
    simp only [List.length_cons] at hfit
    exact ih (Memory.wf_write h b (by omega)) (a + 1) (by omega)

/-- Memory with nothing listed is canonical, whatever the font. -/
theorem Memory.wf_nil (font : Vector Byte 80) : Memory.wf font [] := ⟨List.Pairwise.nil, by simp⟩

/-- What copied bytes read as. -/
theorem Memory.read_load (font : Vector Byte 80) (m : Memory) (a : Nat) (bs : List Byte) (c : Nat) :
    Memory.read font (Memory.load font m a bs) c =
      if hc : a ≤ c ∧ c < a + bs.length then bs[c - a]'(by omega) else Memory.read font m c := by
  induction bs generalizing m a with
  | nil => simp [Memory.load]
  | cons b bs ih =>
    rw [Memory.load, ih, Memory.read_write]
    by_cases h1 : a + 1 ≤ c ∧ c < a + 1 + bs.length
    · have h2 : a ≤ c ∧ c < a + (b :: bs).length := by simp only [List.length_cons]; omega
      have e : c - a = (c - (a + 1)) + 1 := by omega
      simp only [dif_pos h1, dif_pos h2, e, List.getElem_cons_succ]
    · simp only [dif_neg h1]
      by_cases h3 : c = a
      · have h2 : a ≤ c ∧ c < a + (b :: bs).length := by simp only [List.length_cons]; omega
        have e0 : c - a = 0 := by omega
        simp only [dif_pos h2, if_pos h3, e0, List.getElem_cons_zero]
      · have h2 : ¬ (a ≤ c ∧ c < a + (b :: bs).length) := by simp only [List.length_cons]; omega
        simp only [dif_neg h2, if_neg h3]

end Sys2Proof.Machine
end

