-- ==== Sys2Proof/Laws/Ops.lean ====
section
/-! SUPPORT. What each shared operation can do, said once: block loads and stores, fetch, the framebuffer, timers, trace, keys. -/

namespace Sys2Proof.Machine

/-! #### Loads -/

/-- In range, a block read gives the bytes of memory in order. -/
theorem readBytes_ok (s : State) (a n : Nat) (h : a + n ≤ 4096) :
    readBytes s a n = .ok ((List.range n).map fun k => s.byteAt (a + k)) := by
  induction n generalizing a with
  | zero => rfl
  | succ n ih =>
    simp only [readBytes, memRead, if_neg (show ¬ 4095 < a by omega), ih (a + 1) (by omega)]
    simp only [List.range_succ_eq_map, List.map_cons, List.map_map]
    congr 2
    exact List.map_congr_left fun k _ => by simp [Nat.add_assoc, Nat.add_comm 1]

/-- A block load: the bytes, or the failure of the range check. -/
theorem loadBlock_eq (s : State) (a n : Nat) :
    loadBlock s a n = if 0 < n ∧ 4095 < a + n - 1 then .error (.addressOutOfRange 4096)
      else .ok ((List.range n).map fun k => s.byteAt (a + k)) := by
  unfold loadBlock
  split
  · rfl
  · cases n with
    | zero => rfl
    | succ n => exact readBytes_ok s a (n + 1) (by omega)

/-! #### Stores -/

/-- In range and past any font check, a block write copies the bytes and changes nothing else. -/
theorem writeBytes_ok (s : State) (a : Nat) (bs : List Byte) (h : a + bs.length ≤ 4096)
    (hf : s.config.fontStoreFaults = true → fontSize ≤ a) :
    writeBytes s a bs = .ok { s with M := Memory.load s.config.font s.M a bs } := by
  induction bs generalizing s a with
  | nil => rfl
  | cons b bs ih =>
    simp only [List.length_cons] at h
    have h2 : ¬ (s.config.fontStoreFaults = true ∧ a < fontSize) := fun ⟨e, hl⟩ => by have := hf e; omega
    simp only [writeBytes, memWrite, if_neg (show ¬ 4095 < a by omega), if_neg h2]
    exact ih { s with M := Memory.write s.config.font s.M a b } (a + 1) (by omega) fun e => by have := hf e; omega

/-- A block store of at least one byte: the range failure, the font failure, or the bytes copied. -/
theorem storeBlock_eq (s : State) (a : Nat) (bs : List Byte) (hne : bs ≠ []) :
    storeBlock s a bs = if 4095 < a + bs.length - 1 then .error (.addressOutOfRange 4096)
      else if s.config.fontStoreFaults = true ∧ a < fontSize then .error (.addressOutOfRange a)
      else .ok { s with M := Memory.load s.config.font s.M a bs } := by
  have hpos : 0 < bs.length := List.length_pos_iff.2 hne
  unfold storeBlock
  by_cases h : 4095 < a + bs.length - 1
  · simp [h, hpos]
  · rw [if_neg (fun hc => h hc.2), if_neg h]
    by_cases hf : s.config.fontStoreFaults = true ∧ a < fontSize
    · rw [if_pos hf]
      cases bs with
      | nil => exact absurd rfl hne
      | cons b bs => simp [writeBytes, memWrite, hf, show ¬ 4095 < a by simp only [List.length_cons] at h; omega]
    · rw [if_neg hf]
      exact writeBytes_ok s a bs (by omega) fun e => by
        by_contra hl
        exact hf ⟨e, by omega⟩

/-- Reading any byte after bytes were copied into memory. -/
theorem byteAt_load (s : State) (a : Nat) (bs : List Byte) (c : Nat) :
    State.byteAt { s with M := Memory.load s.config.font s.M a bs } c =
      if hc : a ≤ c ∧ c < a + bs.length then bs[c - a]'(by omega) else s.byteAt c :=
  Memory.read_load _ _ _ _ _

/-! #### Bytes and words -/

/-- Big-endian: the high byte counts 256 (20_memory.md R62). -/
theorem wordOfBytes_toNat (hi lo : Byte) : (wordOfBytes hi lo).toNat = hi.toNat * 256 + lo.toNat := by
  have h1 := hi.isLt
  have h2 := lo.isLt
  have key := Nat.two_pow_add_eq_or_of_lt (i := 8) h2 hi.toNat
  unfold wordOfBytes
  simp only [BitVec.toNat_or, BitVec.toNat_shiftLeft, BitVec.toNat_setWidth, Nat.shiftLeft_eq]
  rw [Nat.mod_eq_of_lt (show hi.toNat < 2 ^ 16 by omega), Nat.mod_eq_of_lt (show lo.toNat < 2 ^ 16 by omega),
    Nat.mod_eq_of_lt (by omega), Nat.mul_comm hi.toNat, ← key]

/-- A word laid out in bytes reads back. -/
@[simp] theorem wordOfBytes_hiByte_loByte (w : Word) : wordOfBytes (hiByte w) (loByte w) = w := by
  apply BitVec.eq_of_toNat_eq
  have := w.isLt
  rw [wordOfBytes_toNat]
  simp only [hiByte, loByte, BitVec.extractLsb'_toNat, Nat.shiftRight_eq_div_pow]
  omega

/-! #### Fetch -/

/-- The fetch: the word at pc, or the failure of its first byte out of range. -/
theorem fetch_eq (s : State) :
    fetch s = if 4095 < s.pc.toNat then .error (.addressOutOfRange s.pc.toNat)
      else if s.pc.toNat = 4095 then .error (.addressOutOfRange 4096) else .ok s.wordAtPc := by
  unfold fetch memRead State.wordAtPc
  by_cases h1 : 4095 < s.pc.toNat
  · simp [h1]
  · by_cases h2 : s.pc.toNat = 4095
    · simp [h2]
    · simp [h1, h2, show ¬ 4095 < s.pc.toNat + 1 by omega]

/-- A successful fetch: where it can be, and what it reads. -/
theorem fetch_ok {s : State} {op : Word} (h : fetch s = .ok op) : s.pc.toNat ≤ 4094 ∧ op = s.wordAtPc := by
  rw [fetch_eq] at h
  split at h
  · cases h
  · split at h
    · cases h
    · exact ⟨by omega, by injection h with h; exact h.symm⟩

/-- What a successful step went through: fetch, decode, a successful execute step, the end of the cycle. -/
theorem step_next {s t : State} (h : step s = .next t) :
    ∃ op i u, fetch s = .ok op ∧ decode op = .ok i ∧ exec i (s.latch op) = .next u ∧ t = u.endCycle := by
  unfold step at h
  cases hf : fetch s with
  | error f => simp [hf, raise] at h
  | ok op =>
    cases hd : decode op with
    | error r => simp [hf, hd, raise] at h
    | ok i =>
      simp only [hf, hd, runInstr] at h
      cases he : exec i (s.latch op) with
      | next u =>
        simp only [he, finishCycle, Host.Outcome.next.injEq] at h
        exact ⟨op, i, u, rfl, hd, he, h.symm⟩
      | fault f => simp [he, finishCycle] at h
      | refused r => simp [he, finishCycle] at h

/-- The step of a state that fetches an instruction. -/
theorem step_of_fetch {s : State} {op : Word} {i : Instr} (hf : fetch s = .ok op) (hd : decode op = .ok i) :
    step s = finishCycle (exec i (s.latch op)) := by
  simp [step, hf, hd, runInstr]

/-! #### The framebuffer -/

/-- Reading any cell after one was toggled. -/
theorem Framebuffer.cell_toggle (fb : Framebuffer) (k j : Nat) (hk : k < 2048) :
    (fb.toggle k).cell j = if j = k then !fb.cell k else fb.cell j := by
  have hk64 : k / 64 < 32 := by omega
  unfold Framebuffer.cell Framebuffer.toggle fbWidth
  by_cases hr : j / 64 = k / 64
  · rw [hr, Vector.getElem?_setIfInBounds_self_of_lt hk64]
    simp only [Option.getD_some, BitVec.getLsbD_xor, BitVec.getLsbD_twoPow]
    have hj : j % 64 < 64 := Nat.mod_lt _ (by decide)
    by_cases hc : j = k
    · subst hc; simp [hj]
    · have : k % 64 ≠ j % 64 := by omega
      simp [hc, this]
  · rw [Vector.getElem?_setIfInBounds_ne (by omega)]
    simp [show j ≠ k by rintro rfl; exact hr rfl]

/-- A clear framebuffer. -/
@[simp] theorem Framebuffer.cell_clear (k : Nat) : Framebuffer.clear.cell k = false := by
  unfold Framebuffer.cell Framebuffer.clear fbWidth
  by_cases h : k / 64 < 32
  · rw [Vector.getElem?_eq_getElem h, Vector.getElem_replicate]
    exact BitVec.getLsbD_zero
  · rw [Vector.getElem?_eq_none (by omega)]
    exact BitVec.getLsbD_zero

/-- Two framebuffers with the same cells are equal. -/
theorem Framebuffer.ext_cell {fb gb : Framebuffer} (h : ∀ k, k < 2048 → fb.cell k = gb.cell k) : fb = gb := by
  apply Vector.ext
  intro r hr
  apply BitVec.eq_of_getLsbD_eq
  intro c hc
  have hk := h (64 * r + c) (by omega)
  have e1 : (64 * r + c) / 64 = r := by omega
  have e2 : (64 * r + c) % 64 = c := by omega
  simpa [Framebuffer.cell, fbWidth, e1, e2, hr] using hk

/-- Drawing distinct cells toggles each of them and collides iff one of them was set. -/
theorem foldl_drawBit (ks : List Nat) (fb : Framebuffer) (hit : Bool) (hlt : ∀ k ∈ ks, k < 2048) (hnd : ks.Nodup) :
    (∀ j, (ks.foldl drawBit (fb, hit)).1.cell j = if j ∈ ks then !fb.cell j else fb.cell j) ∧
    ((ks.foldl drawBit (fb, hit)).2 = true ↔ hit = true ∨ ∃ k ∈ ks, fb.cell k = true) := by
  induction ks generalizing fb hit with
  | nil => simp
  | cons k ks ih =>
    have hk : k < 2048 := hlt k (by simp)
    have hnd' := List.nodup_cons.1 hnd
    obtain ⟨h1, h2⟩ := ih (fb.toggle k) (hit || fb.cell k) (fun j hj => hlt j (by simp [hj])) hnd'.2
    refine ⟨fun j => ?_, ?_⟩
    · rw [List.foldl_cons, drawBit, h1 j, Framebuffer.cell_toggle fb k j hk]
      by_cases hj : j = k
      · subst hj; simp [hnd'.1]
      · simp [hj]
    · rw [List.foldl_cons, drawBit, h2, Bool.or_eq_true]
      have hc : ∀ j ∈ ks, (fb.toggle k).cell j = fb.cell j := fun j hj => by
        rw [Framebuffer.cell_toggle fb k j hk, if_neg (by rintro rfl; exact hnd'.1 hj)]
      constructor
      · rintro ((h | h) | ⟨j, hj, h⟩)
        · exact .inl h
        · exact .inr ⟨k, by simp, h⟩
        · exact .inr ⟨j, by simp [hj], by rwa [hc j hj] at h⟩
      · rintro (h | ⟨j, hj, h⟩)
        · exact .inl (.inl h)
        · rcases List.mem_cons.1 hj with rfl | hj
          · exact .inl (.inr h)
          · exact .inr ⟨j, hj, by rwa [hc j hj]⟩

/-- The cells one sprite row lights. -/
theorem mem_rowCells {x y r : Nat} {row : Byte} {k : Nat} :
    k ∈ rowCells x y r row ↔ ∃ c, c < 8 ∧ row.getLsbD (7 - c) = true ∧ k = spriteCell x y r c := by
  simp only [rowCells, List.mem_map, List.mem_filter, List.mem_range, and_assoc]
  exact exists_congr fun c => and_congr_right fun _ => and_congr_right fun _ => eq_comm

/-- The cells a sprite lights. -/
theorem mem_spriteCells {x y r : Nat} {rows : List Byte} {k : Nat} :
    k ∈ spriteCells x y r rows ↔
      ∃ i, ∃ h : i < rows.length, ∃ c, c < 8 ∧ (rows[i]).getLsbD (7 - c) = true ∧ k = spriteCell x y (r + i) c := by
  induction rows generalizing r with
  | nil => simp [spriteCells]
  | cons row rows ih =>
    rw [spriteCells, List.mem_append, mem_rowCells, ih]
    constructor
    · rintro (⟨c, hc, hb, hk⟩ | ⟨i, hi, c, hc, hb, hk⟩)
      · exact ⟨0, by simp, c, hc, by simpa using hb, by simpa using hk⟩
      · exact ⟨i + 1, by simpa using hi, c, hc, by simpa using hb, by rw [hk, Nat.add_assoc, Nat.add_comm 1]⟩
    · rintro ⟨i, hi, c, hc, hb, hk⟩
      cases i with
      | zero => exact .inl ⟨c, hc, by simpa using hb, by simpa using hk⟩
      | succ i => exact .inr ⟨i, by simpa using hi, c, hc, by simpa using hb, by rw [hk, Nat.add_assoc, Nat.add_comm 1]⟩

/-- Every cell a sprite lights exists. -/
theorem spriteCell_lt (x y r c : Nat) : spriteCell x y r c < 2048 := Nat.mod_lt _ (by decide)

/-- No two bits of one sprite of at most 16 rows land on one cell (44_display.md R241, corner cases). -/
theorem spriteCells_nodup (x y r : Nat) (rows : List Byte) (h : rows.length ≤ 16) : (spriteCells x y r rows).Nodup := by
  induction rows generalizing r with
  | nil => simp [spriteCells]
  | cons row rows ih =>
    simp only [List.length_cons] at h
    rw [spriteCells, List.nodup_append]
    refine ⟨?_, ih (r + 1) (by omega), ?_⟩
    · refine List.Nodup.map_on ?_ (List.nodup_range.filter _)
      intro c hc d hd e
      simp only [List.mem_filter, List.mem_range] at hc hd
      simp only [spriteCell, fbCells] at e
      omega
    · intro k hk l hl e
      obtain ⟨c, hc, -, rfl⟩ := mem_rowCells.1 hk
      obtain ⟨i, hi, d, hd, -, rfl⟩ := mem_spriteCells.1 hl
      simp only [spriteCell, fbCells] at e
      omega

/-- What drawing a sprite of at most 16 rows does: the lit cells toggled, and the collision. -/
theorem drawSprite_spec (fb : Framebuffer) (x y : Nat) (rows : List Byte) (h : rows.length ≤ 16) :
    (∀ j, (drawSprite fb x y rows).1.cell j = if j ∈ spriteCells x y 0 rows then !fb.cell j else fb.cell j) ∧
    ((drawSprite fb x y rows).2 = true ↔ ∃ k ∈ spriteCells x y 0 rows, fb.cell k = true) := by
  have := foldl_drawBit (spriteCells x y 0 rows) fb false
    (fun k hk => by obtain ⟨i, _, c, _, _, rfl⟩ := mem_spriteCells.1 hk; exact spriteCell_lt ..)
    (spriteCells_nodup x y 0 rows h)
  simpa [drawSprite] using this

/-! #### Timers, trace and keys -/

/-- A timer falls by exactly 1 while above 0. -/
theorem timerTick_toNat (t : Byte) : (timerTick t).toNat = t.toNat - 1 := by
  unfold timerTick
  split
  · have := t.isLt; simp [BitVec.toNat_sub]; omega
  · omega

/-- The trace never grows past its bound. -/
theorem appendTrace_length (tr : List String) (e : String) (h : tr.length ≤ traceDepth) :
    (appendTrace tr e).length ≤ traceDepth := by
  unfold appendTrace traceDepth at *
  split <;> simp <;> omega

/-- No key pressed. -/
theorem lowestKey_none {s : State} (h : ∀ k, s.key k = false) : s.lowestKey = none := by
  simp [State.lowestKey, h]

/-- The least pressed key. -/
theorem lowestKey_some {s : State} {k : Reg} (h : s.key k = true) (hl : ∀ j, j < k → s.key j = false) :
    s.lowestKey = some k := by
  unfold State.lowestKey
  rw [List.find?_eq_some_iff_getElem]
  refine ⟨h, k.val, by simp, by simp, fun j hj => ?_⟩
  simp [hl ⟨j, by omega⟩ (by simpa [Fin.lt_def] using hj)]

/-- The decoder's only rejection carries the word. -/
theorem decode_error {op : Word} {r : Reject} (h : decode op = .error r) : r = .unknownOpcode op := by
  have key : ∀ {e : Except Reject Instr}, (∃ i, e = .ok i) ∨ e = .error (.unknownOpcode op) → e = .error r →
      r = .unknownOpcode op := by
    rintro e (⟨i, rfl⟩ | rfl) he
    · cases he
    · injection he with he; exact he.symm
  have h0 : (∃ i, decodeFamily0 op = .ok i) ∨ decodeFamily0 op = .error (.unknownOpcode op) := by
    unfold decodeFamily0; split <;> simp
  have h8 : (∃ i, decodeFamily8 op = .ok i) ∨ decodeFamily8 op = .error (.unknownOpcode op) := by
    unfold decodeFamily8; split <;> simp
  have hE : (∃ i, decodeFamilyE op = .ok i) ∨ decodeFamilyE op = .error (.unknownOpcode op) := by
    unfold decodeFamilyE; split <;> simp
  have hF : (∃ i, decodeFamilyF op = .ok i) ∨ decodeFamilyF op = .error (.unknownOpcode op) := by
    unfold decodeFamilyF; split <;> simp
  refine key ?_ h
  unfold decode
  split <;> first
    | exact h0 | exact h8 | exact hE | exact hF
    | exact .inl ⟨_, rfl⟩ | exact .inr rfl

end Sys2Proof.Machine
end

