-- ==== Sys2Proof/Laws/PerInstr.lean ====
section
/-! SUPPORT. Facts about every instruction as syntax, one lemma per constructor: its operands fit their fields, and its encoding
matches its row of the opcode map (30_encoding.md R96). -/

namespace Sys2Proof

/-! #### What a row's mask leaves of each format -/

theorem formatA_mask_F000 (f : Fin 16) (nnn : Addr12) :
    formatA f nnn &&& 0xF000 = formatA f 0 := by
  apply BitVec.eq_of_getLsbD_eq
  intro i hi
  unfold formatA
  interval_cases i <;> simp [nibble]

theorem formatXKK_mask_F000 (f : Fin 16) (x : Reg) (kk : Byte) :
    formatXKK f x kk &&& 0xF000 = formatXKK f 0 0 := by
  apply BitVec.eq_of_getLsbD_eq
  intro i hi
  unfold formatXKK
  interval_cases i <;> simp [nibble]

theorem formatXKK_mask_F0FF (f : Fin 16) (x : Reg) (kk : Byte) :
    formatXKK f x kk &&& 0xF0FF = formatXKK f 0 kk := by
  apply BitVec.eq_of_getLsbD_eq
  intro i hi
  unfold formatXKK
  interval_cases i <;> simp [nibble]

theorem formatXYN_mask_F000 (f : Fin 16) (x y : Reg) (n : Fin 16) :
    formatXYN f x y n &&& 0xF000 = formatXYN f 0 0 0 := by
  apply BitVec.eq_of_getLsbD_eq
  intro i hi
  unfold formatXYN
  interval_cases i <;> simp [nibble]

theorem formatXYN_mask_F00F (f : Fin 16) (x y : Reg) (n : Fin 16) :
    formatXYN f x y n &&& 0xF00F = formatXYN f 0 0 n := by
  apply BitVec.eq_of_getLsbD_eq
  intro i hi
  unfold formatXYN
  interval_cases i <;> simp [nibble]

/-! #### Each operand fits its field -/

@[simp] theorem Operand.wellFormed_x (x : Reg) : (Operand.x x).wellFormed = true := by
  have := x.isLt; simp [Operand.x, Operand.wellFormed]
@[simp] theorem Operand.wellFormed_y (y : Reg) : (Operand.y y).wellFormed = true := by
  have := y.isLt; simp [Operand.y, Operand.wellFormed]
@[simp] theorem Operand.wellFormed_n (n : Fin 16) : (Operand.n n).wellFormed = true := by
  have := n.isLt; simp [Operand.n, Operand.wellFormed]
@[simp] theorem Operand.wellFormed_kk (kk : Byte) : (Operand.kk kk).wellFormed = true := by
  simpa [Operand.kk, Operand.wellFormed] using kk.isLt
@[simp] theorem Operand.wellFormed_nnn (nnn : Addr12) : (Operand.nnn nnn).wellFormed = true := by
  simpa [Operand.nnn, Operand.wellFormed] using nnn.isLt

/-- The instruction's operands fit their fields and its word matches its row. -/
def Laws.Encoding.Statement (i : Instr) : Prop := i.wellFormed = true ∧ encode i &&& i.row.mask = i.row.pattern

theorem Laws.Encoding.cls : Laws.Encoding.Statement (.cls) :=
  ⟨by simp [Instr.wellFormed, Instr.operands], (formatXKK_mask_F0FF ..).trans rfl⟩
theorem Laws.Encoding.ret : Laws.Encoding.Statement (.ret) :=
  ⟨by simp [Instr.wellFormed, Instr.operands], (formatXKK_mask_F0FF ..).trans rfl⟩
theorem Laws.Encoding.jp (nnn : Addr12) : Laws.Encoding.Statement (.jp nnn) :=
  ⟨by simp [Instr.wellFormed, Instr.operands], (formatA_mask_F000 ..).trans rfl⟩
theorem Laws.Encoding.call (nnn : Addr12) : Laws.Encoding.Statement (.call nnn) :=
  ⟨by simp [Instr.wellFormed, Instr.operands], (formatA_mask_F000 ..).trans rfl⟩
theorem Laws.Encoding.seImm (x : Reg) (kk : Byte) : Laws.Encoding.Statement (.seImm x kk) :=
  ⟨by simp [Instr.wellFormed, Instr.operands], (formatXKK_mask_F000 ..).trans rfl⟩
theorem Laws.Encoding.sneImm (x : Reg) (kk : Byte) : Laws.Encoding.Statement (.sneImm x kk) :=
  ⟨by simp [Instr.wellFormed, Instr.operands], (formatXKK_mask_F000 ..).trans rfl⟩
theorem Laws.Encoding.seReg (x y : Reg) : Laws.Encoding.Statement (.seReg x y) :=
  ⟨by simp [Instr.wellFormed, Instr.operands], (formatXYN_mask_F000 ..).trans rfl⟩
theorem Laws.Encoding.ldImm (x : Reg) (kk : Byte) : Laws.Encoding.Statement (.ldImm x kk) :=
  ⟨by simp [Instr.wellFormed, Instr.operands], (formatXKK_mask_F000 ..).trans rfl⟩
theorem Laws.Encoding.addImm (x : Reg) (kk : Byte) : Laws.Encoding.Statement (.addImm x kk) :=
  ⟨by simp [Instr.wellFormed, Instr.operands], (formatXKK_mask_F000 ..).trans rfl⟩
theorem Laws.Encoding.ldReg (x y : Reg) : Laws.Encoding.Statement (.ldReg x y) :=
  ⟨by simp [Instr.wellFormed, Instr.operands], (formatXYN_mask_F00F ..).trans rfl⟩
theorem Laws.Encoding.or (x y : Reg) : Laws.Encoding.Statement (.or x y) :=
  ⟨by simp [Instr.wellFormed, Instr.operands], (formatXYN_mask_F00F ..).trans rfl⟩
theorem Laws.Encoding.and (x y : Reg) : Laws.Encoding.Statement (.and x y) :=
  ⟨by simp [Instr.wellFormed, Instr.operands], (formatXYN_mask_F00F ..).trans rfl⟩
theorem Laws.Encoding.xor (x y : Reg) : Laws.Encoding.Statement (.xor x y) :=
  ⟨by simp [Instr.wellFormed, Instr.operands], (formatXYN_mask_F00F ..).trans rfl⟩
theorem Laws.Encoding.addReg (x y : Reg) : Laws.Encoding.Statement (.addReg x y) :=
  ⟨by simp [Instr.wellFormed, Instr.operands], (formatXYN_mask_F00F ..).trans rfl⟩
theorem Laws.Encoding.sub (x y : Reg) : Laws.Encoding.Statement (.sub x y) :=
  ⟨by simp [Instr.wellFormed, Instr.operands], (formatXYN_mask_F00F ..).trans rfl⟩
theorem Laws.Encoding.shr (x : Reg) : Laws.Encoding.Statement (.shr x) :=
  ⟨by simp [Instr.wellFormed, Instr.operands], (formatXYN_mask_F00F ..).trans rfl⟩
theorem Laws.Encoding.subn (x y : Reg) : Laws.Encoding.Statement (.subn x y) :=
  ⟨by simp [Instr.wellFormed, Instr.operands], (formatXYN_mask_F00F ..).trans rfl⟩
theorem Laws.Encoding.shl (x : Reg) : Laws.Encoding.Statement (.shl x) :=
  ⟨by simp [Instr.wellFormed, Instr.operands], (formatXYN_mask_F00F ..).trans rfl⟩
theorem Laws.Encoding.sneReg (x y : Reg) : Laws.Encoding.Statement (.sneReg x y) :=
  ⟨by simp [Instr.wellFormed, Instr.operands], (formatXYN_mask_F000 ..).trans rfl⟩
theorem Laws.Encoding.ldI (nnn : Addr12) : Laws.Encoding.Statement (.ldI nnn) :=
  ⟨by simp [Instr.wellFormed, Instr.operands], (formatA_mask_F000 ..).trans rfl⟩
theorem Laws.Encoding.jpV0 (nnn : Addr12) : Laws.Encoding.Statement (.jpV0 nnn) :=
  ⟨by simp [Instr.wellFormed, Instr.operands], (formatA_mask_F000 ..).trans rfl⟩
theorem Laws.Encoding.rnd (x : Reg) (kk : Byte) : Laws.Encoding.Statement (.rnd x kk) :=
  ⟨by simp [Instr.wellFormed, Instr.operands], (formatXKK_mask_F000 ..).trans rfl⟩
theorem Laws.Encoding.drw (x y : Reg) (n : Fin 16) : Laws.Encoding.Statement (.drw x y n) :=
  ⟨by simp [Instr.wellFormed, Instr.operands], (formatXYN_mask_F000 ..).trans rfl⟩
theorem Laws.Encoding.skp (x : Reg) : Laws.Encoding.Statement (.skp x) :=
  ⟨by simp [Instr.wellFormed, Instr.operands], (formatXKK_mask_F0FF ..).trans rfl⟩
theorem Laws.Encoding.sknp (x : Reg) : Laws.Encoding.Statement (.sknp x) :=
  ⟨by simp [Instr.wellFormed, Instr.operands], (formatXKK_mask_F0FF ..).trans rfl⟩
theorem Laws.Encoding.ldVDT (x : Reg) : Laws.Encoding.Statement (.ldVDT x) :=
  ⟨by simp [Instr.wellFormed, Instr.operands], (formatXKK_mask_F0FF ..).trans rfl⟩
theorem Laws.Encoding.ldK (x : Reg) : Laws.Encoding.Statement (.ldK x) :=
  ⟨by simp [Instr.wellFormed, Instr.operands], (formatXKK_mask_F0FF ..).trans rfl⟩
theorem Laws.Encoding.ldDT (x : Reg) : Laws.Encoding.Statement (.ldDT x) :=
  ⟨by simp [Instr.wellFormed, Instr.operands], (formatXKK_mask_F0FF ..).trans rfl⟩
theorem Laws.Encoding.ldST (x : Reg) : Laws.Encoding.Statement (.ldST x) :=
  ⟨by simp [Instr.wellFormed, Instr.operands], (formatXKK_mask_F0FF ..).trans rfl⟩
theorem Laws.Encoding.addI (x : Reg) : Laws.Encoding.Statement (.addI x) :=
  ⟨by simp [Instr.wellFormed, Instr.operands], (formatXKK_mask_F0FF ..).trans rfl⟩
theorem Laws.Encoding.ldF (x : Reg) : Laws.Encoding.Statement (.ldF x) :=
  ⟨by simp [Instr.wellFormed, Instr.operands], (formatXKK_mask_F0FF ..).trans rfl⟩
theorem Laws.Encoding.ldB (x : Reg) : Laws.Encoding.Statement (.ldB x) :=
  ⟨by simp [Instr.wellFormed, Instr.operands], (formatXKK_mask_F0FF ..).trans rfl⟩
theorem Laws.Encoding.ldMI (x : Reg) : Laws.Encoding.Statement (.ldMI x) :=
  ⟨by simp [Instr.wellFormed, Instr.operands], (formatXKK_mask_F0FF ..).trans rfl⟩
theorem Laws.Encoding.ldVI (x : Reg) : Laws.Encoding.Statement (.ldVI x) :=
  ⟨by simp [Instr.wellFormed, Instr.operands], (formatXKK_mask_F0FF ..).trans rfl⟩

/-- Every term of Instr is well formed. -/
theorem Laws.Encoding.wellFormed (i : Instr) : i.wellFormed = true := by
  cases i <;> simp [Instr.wellFormed, Instr.operands]

end Sys2Proof
end

