-- ==== Sys2Proof/Tests/Slice0.lean ====
section
/-! SUPPORT. Tests: the well-formedness checks refuse ill-formed terms; every constructor decodes from a word written out bit by
bit from spec/30_encoding.md R91, R96; one-step tests whose expected values are the vectors of spec/95_test_vectors.md (section
named in each comment); and, for every statement with hypotheses, a concrete state and operands that meet them (`test_meets_…`). -/

namespace Sys2Proof.Tests

open Sys2Proof.Machine

/-! ### Helpers -/

/-- The reset state with pc at `a` and the word `w` there. -/
def place (a : Word) (w : Nat) : State := { State.reset with pc := a }.withFetchWord 16 w

/-- The reset state with the word `w` at 0x200. -/
def at200 (w : Nat) : State := place 0x200 w

/-- Set registers. -/
def setVs (s : State) (l : List (Reg × Byte)) : State := l.foldl (fun s p => s.writeV p.1 p.2) s

/-- Put bytes in memory. -/
def setMem (s : State) (a : Nat) (bs : List Byte) : State := { s with M := Memory.load s.config.font s.M a bs }

/-- Set cells of the framebuffer. -/
def setCells (s : State) (ks : List Nat) : State := { s with fb := ks.foldl Framebuffer.toggle s.fb }

/-- The next cycle's inputs: the keys pressed, and the random byte. -/
def input (keys : List Nat) (rand : Byte := 0) : CycleInput := ⟨Vector.ofFn fun k => keys.contains k.val, rand⟩

/-- The state with one input listed. -/
def hear (s : State) (keys : List Nat) (rand : Byte := 0) : State := { s with inputs := [input keys rand] }

/-- The parameters changed. -/
def withConfig (s : State) (c : Config) : State := { s with config := c }

/-- The font-store and the wait-key choices of the tests, and a stack of one entry. -/
def strictConfig : Config := { defaultConfig with fontStoreFaults := true, waitKeyVx := .lowestPressed, stackDepth := some 1 }

/-- What a next state shows. -/
def after {α : Type} (g : State → α) : Host.Outcome State Fault Refusal → Option α
  | .next t => some (g t)
  | _ => none

/-- The failure of an outcome. -/
def failure : Host.Outcome State Fault Refusal → Option Fault
  | .fault f => some f
  | _ => none

/-- The set cells among `ks`. -/
def cells (s : State) (ks : List Nat) : List Nat := ks.filter s.fb.cell

/-- Every word of the list decodes to its instruction. -/
def decodesTo (l : List (Nat × Instr)) : Bool := l.all fun p => decodeTableWord 16 p.1 == some p.2

/-- Every word of the list is rejected. -/
def rejects (l : List Nat) : Bool := l.all fun w => decodeTableWord 16 w == none

/-! ### Well-formedness refuses ill-formed terms -/

theorem test_wf_register_field : (⟨"X", 11, 8, 15⟩ : Operand).wellFormed = true ∧ (⟨"X", 11, 8, 16⟩ : Operand).wellFormed = false := by decide
theorem test_wf_second_register_field : (⟨"Y", 7, 4, 16⟩ : Operand).wellFormed = false := by decide
theorem test_wf_byte_field : (⟨"KK", 7, 0, 255⟩ : Operand).wellFormed = true ∧ (⟨"KK", 7, 0, 256⟩ : Operand).wellFormed = false := by decide
theorem test_wf_address_field : (⟨"NNN", 11, 0, 4095⟩ : Operand).wellFormed = true ∧ (⟨"NNN", 11, 0, 4096⟩ : Operand).wellFormed = false := by decide
theorem test_wf_height_field : (⟨"N", 3, 0, 16⟩ : Operand).wellFormed = false := by decide
theorem test_wf_field_order : (⟨"X", 7, 8, 0⟩ : Operand).wellFormed = false := by decide
theorem test_wf_field_in_word : (⟨"X", 16, 13, 0⟩ : Operand).wellFormed = false := by decide
theorem test_wf_instruction : (Instr.drw 15 15 15).wellFormed = true := by decide
theorem test_wf_rom : romWellFormed (List.replicate 3584 0) = true ∧ romWellFormed (List.replicate 3585 0) = false := by
  unfold romWellFormed
  rw [List.length_replicate, List.length_replicate]
  decide

/-! ### Decoding: every constructor, bit by bit (30_encoding.md R91, R96) -/

theorem test_decode_control : decodesTo
    [(0b0000_0000_1110_0000, .cls), (0b0000_0000_1110_1110, .ret), (0b0001_0010_0011_0100, .jp 0x234),
     (0b0010_1111_1110_0001, .call 0xFE1), (0b1011_0001_0000_1000, .jpV0 0x108)] = true := by decide
theorem test_decode_skips : decodesTo
    [(0b0011_1010_0101_1100, .seImm 0xA 0x5C), (0b0100_0101_1100_0011, .sneImm 5 0xC3), (0b0101_0001_0010_0000, .seReg 1 2),
     (0b1001_1010_1011_0000, .sneReg 0xA 0xB)] = true := by decide
theorem test_decode_loads : decodesTo
    [(0b0110_0111_1000_0001, .ldImm 7 0x81), (0b0111_1110_0000_1111, .addImm 0xE 0x0F)] = true := by decide
theorem test_decode_alu_moves : decodesTo
    [(0b1000_0001_0010_0000, .ldReg 1 2), (0b1000_0011_0100_0001, .or 3 4), (0b1000_0101_0110_0010, .and 5 6),
     (0b1000_0111_1000_0011, .xor 7 8)] = true := by decide
theorem test_decode_alu_flags : decodesTo
    [(0b1000_1001_1010_0100, .addReg 9 0xA), (0b1000_1011_1100_0101, .sub 0xB 0xC), (0b1000_1101_0000_0110, .shr 0xD),
     (0b1000_1110_1111_0111, .subn 0xE 0xF), (0b1000_0010_0000_1110, .shl 2)] = true := by decide
theorem test_decode_index : decodesTo
    [(0b1010_0010_1111_0000, .ldI 0x2F0), (0b1111_0010_0001_1110, .addI 2), (0b1111_0011_0010_1001, .ldF 3),
     (0b1111_0100_0011_0011, .ldB 4), (0b1111_0101_0101_0101, .ldMI 5), (0b1111_0110_0110_0101, .ldVI 6)] = true := by decide
theorem test_decode_display_random : decodesTo
    [(0b1101_0110_0111_1000, .drw 6 7 8), (0b1100_0001_0000_1111, .rnd 1 0x0F)] = true := by decide
theorem test_decode_keys_timers : decodesTo
    [(0b1110_0101_1001_1110, .skp 5), (0b1110_0110_1010_0001, .sknp 6), (0b1111_0011_0000_0111, .ldVDT 3),
     (0b1111_0100_0000_1010, .ldK 4), (0b1111_0010_0001_0101, .ldDT 2), (0b1111_1001_0001_1000, .ldST 9)] = true := by decide

/-- 95_test_vectors.md 2.1: ignored bits. -/
theorem test_decode_ignored_bits : decodesTo
    [(0x01E0, .cls), (0x0FE0, .cls), (0x07EE, .ret), (0x5121, .seReg 1 2), (0x9AB7, .sneReg 0xA 0xB), (0x8126, .shr 1),
     (0x812E, .shl 1)] = true := by decide

/-- 95_test_vectors.md 2.1: unknown words. -/
theorem test_decode_rejects : rejects
    [0x0000, 0x0123, 0x00E1, 0x00FF, 0x8008, 0x800D, 0x800F, 0xE09F, 0xE0A0, 0xE000, 0xF000, 0xF008, 0xF0FF, 0xF075] = true := by
  decide

/-- A rejection carries the raw word. -/
theorem test_decode_reject_payload : decode 0x8128 = .error (.unknownOpcode 0x8128) := by decide

/-! ### Fetch (95_test_vectors.md 2.1) -/

theorem test_fetch_last_word : after (fun t => (t.pc, t.op)) (step (place 0xFFE 0x1200)) = some (0x200, 0x1200) := by decide
theorem test_fetch_odd : after (fun t => (t.readV 0, t.pc)) (step (place 0x201 0x6007)) = some (7, 0x203) := by decide
theorem test_fetch_past_end : failure (step { State.reset with pc := 0xFFF }) = some (.addressOutOfRange 0x1000) := by decide
theorem test_fetch_outside : failure (step { State.reset with pc := 0x10FE }) = some (.addressOutOfRange 0x10FE) := by decide
theorem test_step_unknown : failure (step (at200 0x0123)) = some (.unknownOpcode 0x0123) := by decide

/-! ### Control flow (95_test_vectors.md 2.2) -/

theorem test_ret_pops : after (fun t => (t.stack, t.pc)) (step { place 0x300 0x00EE with stack := [0x200, 0x250] }) =
    some ([0x200], 0x252) := by decide
theorem test_ret_underflow : failure (step (at200 0x00EE)) = some .stackUnderflow := by decide
theorem test_call_pushes : after (fun t => (t.stack, t.pc)) (step { at200 0x2300 with stack := [0x208] }) =
    some ([0x208, 0x200], 0x300) := by decide
theorem test_call_overflow : failure (step (withConfig { at200 0x2300 with stack := [0x208] } strictConfig)) = some .stackOverflow := by
  decide
theorem test_jp : after State.pc (step (at200 0x1FFF)) = some 0xFFF := by decide
theorem test_jpv0_unmasked : after State.pc (step (setVs (at200 0xBFFF) [(0, 0xFF)])) = some 0x10FE := by decide
theorem test_se_imm_taken : after State.pc (step (setVs (at200 0x3312) [(3, 0x12)])) = some 0x204 := by decide
theorem test_se_imm_not : after State.pc (step (setVs (at200 0x3313) [(3, 0x12)])) = some 0x202 := by decide
theorem test_sne_imm_not : after State.pc (step (setVs (at200 0x4312) [(3, 0x12)])) = some 0x202 := by decide
theorem test_sne_imm_taken : after State.pc (step (setVs (at200 0x4313) [(3, 0x12)])) = some 0x204 := by decide
theorem test_se_reg_taken : after State.pc (step (setVs (at200 0x5120) [(1, 7), (2, 7)])) = some 0x204 := by decide
theorem test_se_reg_not : after State.pc (step (setVs (at200 0x5120) [(1, 7), (2, 8)])) = some 0x202 := by decide
theorem test_sne_reg_taken : after State.pc (step (setVs (at200 0x9120) [(1, 7), (2, 8)])) = some 0x204 := by decide
theorem test_sne_reg_not : after State.pc (step (setVs (at200 0x9110) [(1, 7)])) = some 0x202 := by decide

/-! ### ALU (95_test_vectors.md 2.3): the result and VF -/

theorem test_ld_imm : after (fun t => (t.readV 0xA, t.pc)) (step (at200 0x6AFF)) = some (0xFF, 0x202) := by decide
theorem test_add_imm_wraps : after (fun t => (t.readV 0, t.readV VF)) (step (setVs (at200 0x7001) [(0, 0xFF), (VF, 0x55)])) =
    some (0, 0x55) := by decide
theorem test_ld_reg : after (fun t => (t.readV 1, t.readV 2)) (step (setVs (at200 0x8120) [(1, 9), (2, 0x42)])) = some (0x42, 0x42) := by
  decide
theorem test_or : after (fun t => (t.readV 1, t.readV VF)) (step (setVs (at200 0x8121) [(1, 0x0F), (2, 0xF0), (VF, 0x55)])) =
    some (0xFF, 0x55) := by decide
theorem test_and : after (fun t => (t.readV 1, t.readV 2)) (step (setVs (at200 0x8122) [(1, 0x3C), (2, 0x0F)])) = some (0x0C, 0x0F) := by
  decide
theorem test_xor : after (fun t => (t.readV 1, t.readV 2)) (step (setVs (at200 0x8123) [(1, 0x3C), (2, 0x0F)])) = some (0x33, 0x0F) := by
  decide
theorem test_add_reg_carry : after (fun t => (t.readV 1, t.readV VF)) (step (setVs (at200 0x8124) [(1, 0xC8), (2, 0x64)])) =
    some (0x2C, 1) := by decide
theorem test_add_reg_vf : after (fun t => t.readV VF) (step (setVs (at200 0x8F14) [(VF, 0xFF), (1, 0x01)])) = some 1 := by decide
theorem test_sub_borrow : after (fun t => (t.readV 1, t.readV VF)) (step (setVs (at200 0x8125) [(1, 0x05), (2, 0x07)])) =
    some (0xFE, 1) := by decide
theorem test_sub_equal : after (fun t => (t.readV 1, t.readV VF)) (step (setVs (at200 0x8125) [(1, 0x05), (2, 0x05), (VF, 1)])) =
    some (0, 0) := by decide
theorem test_subn_borrow : after (fun t => (t.readV 1, t.readV VF)) (step (setVs (at200 0x8127) [(1, 0x07), (2, 0x05)])) =
    some (0xFE, 1) := by decide
theorem test_subn_no_borrow : after (fun t => (t.readV 1, t.readV VF)) (step (setVs (at200 0x8127) [(1, 0x05), (2, 0x07)])) =
    some (0x02, 0) := by decide
theorem test_shr_ignores_y : after (fun t => (t.readV 1, t.readV VF)) (step (setVs (at200 0x8126) [(1, 0x05), (2, 0xFF)])) =
    some (0x02, 1) := by decide
theorem test_shr_vf : after (fun t => t.readV VF) (step (setVs (at200 0x8F06) [(VF, 0x03)])) = some 0x01 := by decide
theorem test_shl_unnormalised : after (fun t => (t.readV 1, t.readV VF)) (step (setVs (at200 0x810E) [(1, 0xC1)])) =
    some (0x82, 0x80) := by decide
theorem test_shl_vf : after (fun t => t.readV VF) (step (setVs (at200 0x8F0E) [(VF, 0x81)])) = some 0x02 := by decide

/-! ### Index register and memory (95_test_vectors.md 2.4) -/

theorem test_ld_i : after State.I (step (at200 0xAFFF)) = some 0xFFF := by decide
theorem test_add_i_wraps : after (fun t => (t.I, t.readV VF)) (step (setVs { at200 0xF21E with I := 0xF80 } [(2, 0xFF)])) =
    some (0x07F, 0) := by decide
theorem test_ld_f : after State.I (step (setVs (at200 0xF029) [(0, 0x13)])) = some 15 := by decide
theorem test_ld_f_fails : failure (step (setVs (at200 0xF029) [(0, 0x19)])) = some (.unknownOpcode 0xF029) := by decide
theorem test_ld_b : after (fun t => (t.byteAt 0x300, t.byteAt 0x301, t.byteAt 0x302))
    (step (setVs { at200 0xF033 with I := 0x300 } [(0, 0x7B)])) = some (1, 2, 3) := by decide
theorem test_ld_b_fails : failure (step { at200 0xF033 with I := 0xFFE }) = some (.addressOutOfRange 0x1000) := by decide
theorem test_ld_mi : after (fun t => (t.byteAt 0x300, t.byteAt 0x301, t.byteAt 0x302, t.byteAt 0x303, t.I))
    (step (setVs { at200 0xF255 with I := 0x300 } [(0, 1), (1, 2), (2, 3), (3, 4)])) = some (1, 2, 3, 0, 0x300) := by decide
theorem test_ld_mi_font : after (fun t => t.byteAt 0x10) (step (setVs { at200 0xF055 with I := 0x010 } [(0, 0xAB)])) = some 0xAB ∧
    failure (step (withConfig { at200 0xF055 with I := 0x010 } strictConfig)) = some (.addressOutOfRange 0x010) := by decide
theorem test_ld_vi : after (fun t => (t.readV 0, t.readV 1, t.readV 2, t.readV 3, t.I))
    (step (setMem { at200 0xF265 with I := 0x300 } 0x300 [9, 8, 7, 6])) = some (9, 8, 7, 0, 0x300) := by decide
theorem test_ld_vi_fails : failure (step { at200 0xF165 with I := 0xFFF }) = some (.addressOutOfRange 0x1000) := by decide

/-! ### Display (95_test_vectors.md 2.5) -/

theorem test_cls : after (fun t => (cells t [0, 65, 2047], t.readV VF)) (step (setVs (setCells (at200 0x00E0) [0, 65, 2047]) [(VF, 7)])) =
    some ([], 7) := by decide
/-- {62, 63, 64, 65}: the linear wrap into row 1. -/
theorem test_drw_wraps_linearly : after (fun t => (cells t (List.range 80), t.readV VF))
    (step (setVs (setMem { at200 0xD011 with I := 0x300 } 0x300 [0xF0]) [(0, 62), (1, 0)])) =
    some ([62, 63, 64, 65], 0) := by decide
/-- Cells {0, 1, 2, 3} set, drawn again: all cleared, VF = 1. -/
theorem test_drw_collides : after (fun t => (cells t (List.range 80), t.readV VF))
    (step (setCells (setMem { at200 0xD011 with I := 0x300 } 0x300 [0xF0]) [0, 1, 2, 3])) = some ([], 1) := by decide

/-! ### Random, keypad and timers (95_test_vectors.md 2.6) -/

theorem test_rnd : after (fun t => t.readV 1) (step (hear (at200 0xC10F) [] 0xA7)) = some 0x07 := by decide
theorem test_skp_pressed : after State.pc (step (hear (setVs (at200 0xE59E) [(5, 0xA)]) [0xA])) = some 0x204 := by decide
theorem test_skp_index : failure (step (hear (setVs (at200 0xE59E) [(5, 0x10)]) [])) = some (.keyIndexOutOfRange 0x10) := by decide
theorem test_sknp_pressed : after State.pc (step (hear (setVs (at200 0xE5A1) [(5, 0xA)]) [0xA])) = some 0x202 := by decide
theorem test_sknp_released : after State.pc (step (hear (setVs (at200 0xE5A1) [(5, 0xA)]) [])) = some 0x204 := by decide
theorem test_ld_vdt : after (fun t => (t.readV 3, t.DT)) (step { at200 0xF307 with DT := 0x20 }) = some (0x20, 0x1F) := by decide
theorem test_ld_k_waits : after (fun t => (t.pc, t.DT, t.readV 4)) (step (hear { place 0x206 0xF40A with DT := 3 } [])) =
    some (0x206, 2, 0) := by decide
theorem test_ld_k_ends : after (fun t => (t.pc, t.readV 4)) (step (hear (place 0x206 0xF40A) [3])) = some (0x208, 0) ∧
    after (fun t => (t.pc, t.readV 4)) (step (hear (withConfig (place 0x206 0xF40A) strictConfig) [3, 9])) = some (0x208, 3) := by decide
theorem test_ld_dt : after State.DT (step (setVs (at200 0xF215) [(2, 60)])) = some 59 ∧
    after State.DT (step (setVs (at200 0xF215) [(2, 0)])) = some 0 := by decide
theorem test_ld_st : after (fun t => (t.ST, t.DT)) (step (setVs { at200 0xF218 with DT := 9 } [(2, 10)])) = some (9, 8) := by decide
theorem test_failing_cycle_keeps_timers : cycle (input []) { at200 0x0000 with DT := 5, ST := 5 } =
    (.err (.unknownOpcode 0), { at200 0x0000 with DT := 5, ST := 5 }) := by decide

/-! ### Creation and trace (95_test_vectors.md 2.7, 2.8) -/

/-- The loaded state, or the reset state where creation fails. -/
def loaded (rom : List Byte) : State := ((create defaultConfig false rom).toOption).getD State.reset

/-- P1's first cycle: ROM `60 05 70 03`. -/
theorem test_create_runs_rom : after (fun t => (t.readV 0, t.pc, t.byteAt 0x202)) (step (loaded [0x60, 0x05, 0x70, 0x03])) =
    some (5, 0x202, 0x70) := by decide
theorem test_create_empty : create defaultConfig false [] = .ok State.reset ∧
    failure (step State.reset) = some (.unknownOpcode 0x0000) := by decide
theorem test_trace_drops_oldest :
    after (fun t => (t.trace.length, t.trace.head?)) (step { at200 0x00E0 with diag := true, trace := "e1" :: List.replicate 50 "e2" }) =
      some (51, some "e2") := by decide
theorem test_trace_off : after State.trace (step { at200 0x00E0 with trace := ["e1"] }) = some ["e1"] := by decide

/-! ### Concrete states and operands that meet the statements' hypotheses, one for each clause -/

/-- The outcome is a next state. -/
theorem next_of {o : Host.Outcome State Fault Refusal} (h : (after State.pc o).isSome = true) : ∃ t, o = .next t := by
  cases o with
  | next t => exact ⟨t, rfl⟩
  | fault f => simp [after] at h
  | refused r => simp [after] at h

/-- The first cycle fetches this word, which decodes to this instruction. -/
theorem fetches_of {s : State} {i : Instr} (op : Word) (hf : fetch s = .ok op) (hd : decode op = .ok i) : s.fetches i := ⟨op, hf, hd⟩

/-- The instruction fetched is the only one fetched. -/
theorem fetchesNo_of {s : State} {i : Instr} {p : Instr → Bool} (h : s.fetches i) (hp : p i = false) : s.fetchesNo p := by
  obtain ⟨op, hf, hd⟩ := h
  rintro j ⟨op', hf', hd'⟩
  rw [hf] at hf'; cases hf'
  rw [hd] at hd'; cases hd'
  exact hp

theorem test_meets_create : (List.replicate 3584 (1 : Byte)).length ≤ 3584 ∧ 3584 < (List.replicate 3585 (1 : Byte)).length := by
  rw [List.length_replicate, List.length_replicate]
  decide
theorem test_meets_decode_ignores : decode 0x5127 = .ok (.seReg 1 2) ∧
    (0x512F : Word) &&& (Instr.seReg 1 2).usedBits = (0x5127 : Word) &&& (Instr.seReg 1 2).usedBits := by decide
theorem test_meets_decode_row : decode 0xDABF = .ok (.drw 0xA 0xB 0xF) ∧
    (⟨"SHL", 0xF00F, 0x800E⟩ : OpcodeRow) ∈ opcodeMap ∧ (0x8FFE : Word) &&& 0xF00F = 0x800E := by decide
theorem test_meets_decode_error : decode 0xF075 = .error (.unknownOpcode 0xF075) ∧ decode 0xEFFF = .error (.unknownOpcode 0xEFFF) ∧
    decode 0x8008 = .error (.unknownOpcode 0x8008) ∧ decode 0x00EF = .error (.unknownOpcode 0x00EF) := by decide
theorem test_meets_memory : (4095 : Nat) ≤ 4095 ∧ 4095 < (4096 : Nat) ∧ (79 : Nat) ≤ 79 ∧
    (withConfig State.reset strictConfig).config.fontStoreFaults = true ∧ 80 ≤ (80 : Nat) ∧
    State.reset.config.fontStoreFaults = false := by decide
theorem test_meets_fetch : (place 0xFFE 0x00E0).pc.toNat ≤ 4094 ∧ (place 0xFFF 0).pc.toNat = 4095 ∧
    4095 < (place 0x1000 0).pc.toNat := by decide
theorem test_meets_stored_word : 1 ≤ (1 : Reg).val ∧ ∃ t, exec (.ldMI 1) { State.reset with I := 0xFFE } = .next t :=
  ⟨by decide, next_of (by decide)⟩
theorem test_meets_placed_word : { State.reset with pc := 0xFFE }.pc.toNat ≤ 4094 := by decide
theorem test_meets_step_runs : fetch (at200 0x6A5C) = .ok 0x6A5C ∧ decode 0x6A5C = .ok (.ldImm 0xA 0x5C) ∧
    ∃ t, exec (.ldImm 0xA 0x5C) { at200 0x6A5C with op := 0x6A5C } = .next t :=
  ⟨by decide, by decide, next_of (by decide)⟩
theorem test_meets_step_runs_fault : fetch (at200 0x00EE) = .ok 0x00EE ∧ decode 0x00EE = .ok .ret ∧
    exec .ret { at200 0x00EE with op := 0x00EE } = .fault .stackUnderflow := ⟨by decide, by decide, rfl⟩
theorem test_meets_timers_fall : ∃ t, step { at200 0xF307 with DT := 1, ST := 0 } = .next t := next_of (by decide)
theorem test_meets_trace_full : (∃ t, step { at200 0x00E0 with diag := true, trace := List.replicate 51 "e" } = .next t) ∧
    (List.replicate 51 "e").length = 51 := ⟨next_of (by decide), by decide⟩
theorem test_meets_trace_room : (∃ t, step { at200 0x00E0 with diag := true, trace := List.replicate 50 "e" } = .next t) ∧
    (List.replicate 50 "e").length ≠ 51 ∧ ∃ t, step (at200 0x00E0) = .next t := ⟨next_of (by decide), by decide, next_of (by decide)⟩
theorem test_meets_cycle_ok : ∃ t, cycle (input []) (at200 0x6A5C) = (.ok 0x6A5C, t) := ⟨_, rfl⟩
theorem test_meets_cycle_err : cycle (input []) (at200 0x00EE) = (.err .stackUnderflow, at200 0x00EE) := by decide
/-- Fetch, decode and execute each give a failure; the last state is safe. -/
theorem test_meets_cycle_fails : cycleFailure (place 0x1000 0) = some (.addressOutOfRange 0x1000) ∧
    cycleFailure (place 0xFFF 0) = some (.addressOutOfRange 4096) ∧
    cycleFailure (at200 0x8128) = some (.unknownOpcode 0x8128) ∧ cycleFailure (at200 0x00EE) = some .stackUnderflow ∧
    (at200 0x00E0).Safe :=
  ⟨by decide, by decide, by decide, by decide, show cycleFailure (at200 0x00E0) = none by decide⟩
theorem test_meets_exec_fails : execFailure .ret State.reset = some .stackUnderflow ∧
    execFailure (.call 0x300) (withConfig { State.reset with stack := [0x208] } strictConfig) = some .stackOverflow ∧
    execFailure (.ldF 0) (setVs { State.reset with op := 0xF029 } [(0, 9)]) = some (.unknownOpcode 0xF029) ∧
    execFailure (.drw 0 1 2) { State.reset with I := 0xFFF } = some (.addressOutOfRange 4096) ∧
    execFailure (.ldB 0) { State.reset with I := 0xFFE } = some (.addressOutOfRange 4096) ∧
    execFailure (.ldB 0) (withConfig { State.reset with I := 79 } strictConfig) = some (.addressOutOfRange 79) ∧
    execFailure (.ldMI 1) { State.reset with I := 0xFFF } = some (.addressOutOfRange 4096) ∧
    execFailure (.ldMI 0) (withConfig { State.reset with I := 0 } strictConfig) = some (.addressOutOfRange 0) ∧
    execFailure (.ldVI 1) { State.reset with I := 0xFFF } = some (.addressOutOfRange 4096) ∧
    execFailure (.skp 5) (setVs State.reset [(5, 16)]) = some (.keyIndexOutOfRange 16) ∧
    execFailure (.sknp 5) (setVs State.reset [(5, 255)]) = some (.keyIndexOutOfRange 255) ∧
    execFailure .cls State.reset = none := by decide
/-- CXKK reads no key; EX9E reads no random byte. -/
theorem test_meets_inputs : (at200 0xC10F).fetchesNo Instr.readsKeypad ∧ (at200 0xE59E).fetchesNo Instr.readsRand :=
  ⟨fetchesNo_of (fetches_of (i := .rnd 1 0x0F) 0xC10F (by decide) (by decide)) rfl,
   fetchesNo_of (fetches_of (i := .skp 5) 0xE59E (by decide) (by decide)) rfl⟩
/-- A state inside a call, with a word stored, that is not the reset state. -/
def insideCall : State := { place 0x300 0x00EE with stack := [0x200], DT := 3, I := 0xFFF }
theorem test_meets_invariant : insideCall.Inv ∧ ∃ t, step insideCall = .next t := by
  have hd : insideCall.config.stackDepth = none := by decide
  have hs : insideCall.stack = [0x200] := by decide
  exact ⟨⟨by decide, by decide, by decide, fun e he => by rw [hs, List.mem_singleton] at he; rw [he]; decide, fun d h => absurd (hd.symm.trans h) (by simp), by decide⟩, next_of (by decide)⟩
theorem test_meets_writers : (∃ t, exec (.drw 0 1 1) { State.reset with I := 0x300 } = .next t) ∧
    (∃ t, exec (.ldVI 3) { State.reset with I := 0x300 } = .next t) ∧ ∃ t, exec (.addReg 1 2) State.reset = .next t :=
  ⟨next_of (by decide), next_of (by decide), next_of (by decide)⟩
theorem test_meets_ret : State.reset.stack = [] ∧ insideCall.stack = [] ++ [0x200] := by decide
theorem test_meets_call : (withConfig { State.reset with stack := [0x208] } strictConfig).config.stackDepth =
      some (withConfig { State.reset with stack := [0x208] } strictConfig).sp ∧
    (withConfig State.reset strictConfig).config.stackDepth ≠ some (withConfig State.reset strictConfig).sp ∧
    State.reset.config.stackDepth ≠ some State.reset.sp := by decide
theorem test_meets_call_then_ret : ∃ t, exec (.call 0x300) State.reset = .next t ∧ { insideCall with stack := [0x200] }.stack = t.stack :=
  ⟨_, rfl, by decide⟩
theorem test_meets_ld_f : ((setVs State.reset [(0, 8)]).readV 0).toNat % 16 < 9 ∧ 9 ≤ ((setVs State.reset [(0, 9)]).readV 0).toNat % 16 := by
  decide
/-- FX33 at 4093, 4094, and at 79, 80 under FONT_STORE_FAULTS. -/
theorem test_meets_ld_b : ({ State.reset with I := 0xFFD }.I.toNat + 2 ≤ 4095 ∧ ¬ { State.reset with I := 0xFFD }.fontStoreBlocked) ∧
    4095 < { State.reset with I := 0xFFE }.I.toNat + 2 ∧
    (withConfig { State.reset with I := 79 } strictConfig).fontStoreBlocked ∧
    ¬ (withConfig { State.reset with I := 80 } strictConfig).fontStoreBlocked := by decide
/-- FX55 with X = 15 at 0xFF0, 0xFF1, and at 79, 80 under FONT_STORE_FAULTS. -/
theorem test_meets_ld_mi : ({ State.reset with I := 0xFF0 }.I.toNat + (15 : Reg).val ≤ 4095 ∧ ¬ { State.reset with I := 0xFF0 }.fontStoreBlocked) ∧
    4095 < { State.reset with I := 0xFF1 }.I.toNat + (15 : Reg).val ∧
    (withConfig { State.reset with I := 79 } strictConfig).fontStoreBlocked ∧
    ¬ (withConfig { State.reset with I := 80 } strictConfig).fontStoreBlocked := by decide
theorem test_meets_ld_vi : { State.reset with I := 0xFFF }.I.toNat + (0 : Reg).val ≤ 4095 ∧
    4095 < { State.reset with I := 0xFFF }.I.toNat + (1 : Reg).val := by decide
theorem test_meets_dump : ∃ t, exec (.ldMI 15) { State.reset with I := 0xFF0 } = .next t := next_of (by decide)
/-- DXYN with N = 1 at 0xFFF, N = 2 at 0xFFF, and N = 0. -/
theorem test_meets_drw : (0 < (1 : Fin 16).val → { State.reset with I := 0xFFF }.I.toNat + (1 : Fin 16).val - 1 ≤ 4095) ∧
    (0 < (2 : Fin 16).val ∧ 4095 < { State.reset with I := 0xFFF }.I.toNat + (2 : Fin 16).val - 1) ∧
    (0 < (0 : Fin 16).val → { State.reset with I := 0xFFF }.I.toNat + (0 : Fin 16).val - 1 ≤ 4095) := by decide
/-- A sprite bit on a set cell, and a sprite bit on a clear one. -/
theorem test_meets_drw_collision :
    ((setMem { State.reset with I := 0x300 } 0x300 [0x80]).spriteLit 0 0 1 0 ∧
      fbRead (setCells (setMem { State.reset with I := 0x300 } 0x300 [0x80]) [0]) 0 = true) ∧
    (∀ k : Fin 2048, (setMem { State.reset with I := 0x300 } 0x300 [0x80]).spriteLit 0 0 1 k.val →
      fbRead (setMem { State.reset with I := 0x300 } 0x300 [0x80]) k = false) :=
  ⟨⟨⟨0, by decide, 0, by decide, by decide, by decide⟩, by decide⟩, fun k _ => Framebuffer.cell_clear k.val⟩
theorem test_meets_draw_twice : ∃ t, exec (.drw 0 1 5) { State.reset with I := 0x300 } = .next t := next_of (by decide)
theorem test_meets_host_inputs : (hear State.reset [3] 0xA7).inputs = input [3] 0xA7 :: [] := rfl
theorem test_meets_key_skips : ((setVs State.reset [(5, 15)]).readV 5).toNat = (15 : Reg).val ∧
    15 < ((setVs State.reset [(5, 16)]).readV 5).toNat := by decide
theorem test_meets_wait : (∀ k, (hear State.reset []).key k = false) ∧ (hear State.reset [3, 9]).key 3 = true ∧
    (∀ j, j < 3 → (hear State.reset [3, 9]).key j = false) ∧ (hear State.reset [3, 9]).config.waitKeyVx = .unchanged ∧
    (withConfig State.reset strictConfig).config.waitKeyVx = .lowestPressed ∧
    (withConfig State.reset { strictConfig with waitKeyVx := .draw }).config.waitKeyVx = .draw := by decide
theorem test_meets_timer_cycles : (at200 0xF215).fetches (.ldDT 2) ∧ (at200 0xF218).fetches (.ldST 2) ∧ (at200 0xF307).fetches (.ldVDT 3) :=
  ⟨⟨0xF215, by decide, by decide⟩, ⟨0xF218, by decide, by decide⟩, 0xF307, by decide, by decide⟩
theorem test_meets_waiting : (hear (at200 0xF40A) []).fetches (.ldK 4) ∧ ∀ k, (hear (at200 0xF40A) []).key k = false :=
  ⟨⟨0xF40A, by decide, by decide⟩, by decide⟩

end Sys2Proof.Tests
end

/-! What the state's accessors read at reset (10_state.md R39), and obligation O1. -/

namespace Sys2Proof.Machine

@[simp] theorem State.readV_reset (r : Reg) : State.reset.readV r = 0 :=
  Vector.getElem_replicate r.isLt

/-- The reset framebuffer is the one 00E0 leaves (44_display.md R240). -/
@[simp] theorem State.reset_fb : State.reset.fb = Framebuffer.clear := rfl

@[simp] theorem fbRead_reset (k : Fin 2048) : fbRead State.reset k = false := by
  rw [fbRead, State.reset_fb, Framebuffer.cell_clear]

/-- Reset lists no byte, so every address reads as unlisted. -/
theorem State.byteAt_reset (a : Nat) : State.reset.byteAt a = unlisted State.reset.config.font a := rfl

theorem State.byteAt_reset_font {a : Nat} (h : a < 80) : State.reset.byteAt a = State.reset.config.font[a] := by
  rw [State.byteAt_reset, unlisted, dif_pos h]

theorem State.byteAt_reset_above_font {a : Nat} (h : 80 ≤ a) : State.reset.byteAt a = 0 := by
  rw [State.byteAt_reset, unlisted, dif_neg (Nat.not_lt.mpr h)]

/-- Settles O1: plain fields by the definition of reset, and V, the framebuffer and memory by what their accessors read there. -/
theorem resetLeavesStatedValues : Obligations.ResetLeavesStatedValues :=
  ⟨State.readV_reset, rfl, rfl, rfl, rfl, rfl, rfl, fbRead_reset, rfl, rfl,
    fun _ h => State.byteAt_reset_font h, fun _ h _ => State.byteAt_reset_above_font h⟩

end Sys2Proof.Machine

/-! What one update of the state leaves unchanged, and the frame of every instruction's execute step (10_state.md R22 to R30). -/

namespace Sys2Proof.Machine

/-! #### The frame of one update -/

theorem FrameBut.trans {ps : List Part} {s t u : State} (hst : FrameBut ps s t) (htu : FrameBut ps t u) : FrameBut ps s u := by
  intro p hp
  have h1 := hst p hp
  have h2 := htu p hp
  cases p with
  | registers | memory => exact fun a => (h2 a).trans (h1 a)
  | _ => exact Eq.trans h2 h1

/-- Every execute step ends with its write of pc (40_cycle_driver.md R125): `advance`, `skipIf` and `jump` are all of this form. -/
theorem FrameBut.setPc {ps : List Part} {s t : State} (h : FrameBut ps s t) (w : Word) :
    FrameBut (.pc :: ps) s { t with pc := w } := by
  intro p hp
  obtain ⟨hpc, hps⟩ := not_or.mp (List.mem_cons.not.mp hp)
  cases p with
  | pc => exact absurd rfl hpc
  | _ => exact h _ hps

theorem frameBut_writeV {s : State} {x : Reg} {b : Byte} : FrameBut [.registers] s (s.writeV x b) := by
  intro p hp
  cases p <;> simp [Part.same] at hp ⊢

theorem frameBut_writeVs {s : State} {k : Nat} {bs : List Byte} : FrameBut [.registers] s (s.writeVs k bs) := by
  intro p hp
  cases p <;> simp [Part.same] at hp ⊢

theorem frameBut_writeWaitKey {s : State} {x k : Reg} : FrameBut [.registers] s (s.writeWaitKey x k) := by
  unfold State.writeWaitKey
  split
  · exact .refl _ s
  · exact frameBut_writeV
  · exact frameBut_writeV

theorem frameBut_setI {s : State} {w : Word} : FrameBut [.index] s { s with I := w } := by
  intro p hp
  cases p <;> simp [Part.same] at hp ⊢

theorem frameBut_setStack {s : State} {l : List Word} : FrameBut [.stack] s { s with stack := l } := by
  intro p hp
  cases p <;> simp [Part.same] at hp ⊢

theorem frameBut_setDT {s : State} {b : Byte} : FrameBut [.delayTimer] s { s with DT := b } := by
  intro p hp
  cases p <;> simp [Part.same] at hp ⊢

theorem frameBut_setST {s : State} {b : Byte} : FrameBut [.soundTimer] s { s with ST := b } := by
  intro p hp
  cases p <;> simp [Part.same] at hp ⊢

theorem frameBut_setFb {s : State} {fb : Framebuffer} : FrameBut [.framebuffer] s { s with fb := fb } := by
  intro p hp
  cases p <;> simp [Part.same] at hp ⊢

theorem frameBut_setM {s : State} {m : Memory} : FrameBut [.memory] s { s with M := m } := by
  intro p hp
  cases p <;> simp [Part.same] at hp ⊢

theorem frameBut_drawRows {s : State} {x y : Reg} {rows : List Byte} :
    FrameBut [.framebuffer, .registers] s (s.drawRows x y rows) :=
  (frameBut_setFb.mono (by simp)).trans (frameBut_writeV.mono (by simp))

/-! #### Operations that may fail -/

theorem commit_map_next {α : Type} {e : Except Fault α} {f : α → State} {t : State} (h : commit (e.map f) = .next t) :
    ∃ a, e = .ok a ∧ t = f a := by
  cases e with
  | error _ => cases h
  | ok a => cases h; exact ⟨a, rfl, rfl⟩

theorem storeBlock_frame {s t : State} {a : Nat} {bs : List Byte} (hne : bs ≠ []) (h : storeBlock s a bs = .ok t) :
    FrameBut [.memory] s t := by
  rw [storeBlock_eq s a bs hne] at h
  split at h
  · cases h
  · split at h
    · cases h
    · cases h; exact frameBut_setM

theorem commit_skipOnKey_next {s t : State} {vx : Byte} {c : Bool → Bool} (h : commit (skipOnKey s vx c) = .next t) :
    ∃ b, t = s.skipIf b := by
  unfold skipOnKey at h
  split at h
  · cases h
  · cases h; exact ⟨_, rfl⟩

theorem firstVs_ne_nil (s : State) (x : Reg) : s.firstVs x ≠ [] :=
  List.ne_nil_of_length_eq_add_one (s.length_firstVs x)

/-! #### The frame of an execute step -/

/-- A completed execute step changes pc and the parts listed for its instruction, and no other. -/
theorem exec_frame {i : Instr} {s t : State} (h : exec i s = .next t) : FrameBut (.pc :: i.writes) s t := by
  cases i with
  | jp | jpV0 | seImm | sneImm | seReg | sneReg => cases h; exact (FrameBut.refl _ s).setPc _
  | ldImm | addImm | ldReg | or | and | xor | rnd | ldVDT => cases h; exact frameBut_writeV.setPc _
  | addReg | sub | shr | subn | shl => cases h; exact (frameBut_writeV.trans frameBut_writeV).setPc _
  | ldI | addI => cases h; exact frameBut_setI.setPc _
  | cls => cases h; exact frameBut_setFb.setPc _
  | ldDT => cases h; exact frameBut_setDT.setPc _
  | ldST => cases h; exact frameBut_setST.setPc _
  | ret =>
    simp only [exec, execRet] at h
    split at h
    · cases h
    · cases h; exact frameBut_setStack.setPc _
  | call nnn =>
    simp only [exec, execCall] at h
    split at h
    · cases h
    · cases h; exact frameBut_setStack.setPc _
  | ldF x =>
    simp only [exec, execLdF] at h
    split at h
    · cases h
    · cases h; exact frameBut_setI.setPc _
  | ldK x =>
    simp only [exec, execLdK] at h
    split at h
    · cases h; exact frameBut_writeWaitKey.setPc _
    · cases h; exact .refl _ s
  | skp | sknp =>
    obtain ⟨b, rfl⟩ := commit_skipOnKey_next h
    exact (FrameBut.refl _ s).setPc _
  | drw x y n =>
    obtain ⟨rows, -, rfl⟩ := commit_map_next h
    exact frameBut_drawRows.setPc _
  | ldVI x =>
    obtain ⟨bs, -, rfl⟩ := commit_map_next h
    exact frameBut_writeVs.setPc _
  | ldB x =>
    obtain ⟨u, hu, rfl⟩ := commit_map_next h
    exact (storeBlock_frame (List.cons_ne_nil _ _) hu).setPc _
  | ldMI x =>
    obtain ⟨u, hu, rfl⟩ := commit_map_next h
    exact (storeBlock_frame (firstVs_ne_nil s x) hu).setPc _

/-- No instruction is listed as a writer of the opcode register: only the fetch latches it (40_cycle_driver.md R122). -/
theorem exec_keeps_op {i : Instr} {s t : State} (h : exec i s = .next t) : t.op = s.op :=
  exec_frame h .opcode (by cases i <;> simp [Instr.writes])

end Sys2Proof.Machine

/-! What a cycle's result says of its step (40_cycle_driver.md R127, R129), and obligations O15 and O17. -/

namespace Sys2Proof.Machine

/-- A cycle that answers `Ok` ran a successful step, and returns the word that step left in `op`. -/
theorem cycle_ok {inp : CycleInput} {s t : State} {op : Word} (h : cycle inp s = (.ok op, t)) :
    step { s with inputs := inp :: s.inputs } = .next t ∧ op = t.op := by
  unfold cycle at h
  split at h
  next u hu => cases h; exact ⟨hu, rfl⟩
  next => cases h
  next => cases h

/-- A cycle that answers `Err` raised that failure in its step and left the state as it was. -/
theorem cycle_err {inp : CycleInput} {s t : State} {f : Fault} (h : cycle inp s = (.err f, t)) :
    step { s with inputs := inp :: s.inputs } = .fault f ∧ t = s := by
  unfold cycle at h
  split at h
  next => cases h
  next g hg => cases h; exact ⟨hg, rfl⟩
  next => cases h

/-- The fetch reads memory at pc, not the cycle's inputs. -/
@[simp] theorem fetch_with_inputs (s : State) (l : List CycleInput) : fetch { s with inputs := l } = fetch s := rfl

/-- A successful step leaves in `op` the word it fetched: neither the execute step nor the cycle's end writes it. -/
theorem fetch_of_step_next {s t : State} (h : step s = .next t) : fetch s = .ok t.op := by
  obtain ⟨op, i, u, hf, -, he, rfl⟩ := step_next h
  have hop : u.op = op := exec_keeps_op he
  rw [hf, State.endCycle_op, hop]

/-- Settles O15: `step_next` gives the state the instruction left, whose timers `endCycle` ticks; a failing cycle is `cycle_err`. -/
theorem timersFallOncePerCycle : Obligations.TimersFallOncePerCycle := by
  refine fun s => ⟨fun t h => ?_, fun inp f t h => ?_⟩
  · obtain ⟨op, i, u, hf, hd, he, rfl⟩ := step_next h
    obtain ⟨-, rfl⟩ := fetch_ok hf
    exact ⟨i, u, ⟨_, hf, hd⟩, he, timerTick_toNat u.DT, timerTick_toNat u.ST⟩
  · obtain ⟨-, rfl⟩ := cycle_err h
    exact ⟨rfl, rfl⟩

/-- Settles O17: the word returned is the one `op` holds after the step, which is the one fetched. -/
theorem cycleReturnsFetchedWord : Obligations.CycleReturnsFetchedWord := by
  intro inp s t op h
  obtain ⟨hstep, rfl⟩ := cycle_ok h
  have hf : fetch s = .ok t.op := by simpa using fetch_of_step_next hstep
  obtain ⟨hpc, hop⟩ := fetch_ok hf
  exact ⟨hpc, hop, hf⟩

end Sys2Proof.Machine

/-! What the transfers of control do to pc and the stack (41_control_flow.md R150 to R156), and obligations O26, O27, O29
and O30. -/

namespace Sys2Proof.Machine

@[simp] theorem addrOperand_toNat (nnn : Addr12) : (addrOperand nnn).toNat = nnn.toNat :=
  BitVec.toNat_setWidth_of_le (by decide)

theorem exec_ret_of_stack_nil {s : State} (h : s.stack = []) : exec .ret s = .fault .stackUnderflow := by
  simp only [exec, execRet, raise, h, List.getLast?_nil]

theorem exec_ret_of_stack_append {s : State} {rest : List Word} {r : Word} (h : s.stack = rest ++ [r]) :
    exec .ret s = .next ({ s with stack := rest }.jump (r + 2)) := by
  simp only [exec, execRet, h, List.getLast?_concat, List.dropLast_concat]

/-- A skip on a test that decides `c` has the whole effect of a skip on `c`. -/
theorem skipsIf_skipIf {s : State} {c : Prop} {b : Bool} (h : b = true ↔ c) : SkipsIf c s (s.skipIf b) := by
  refine ⟨fun hc => ?_, fun hc => ?_, (FrameBut.refl [] s).setPc _⟩
  · rw [State.skipIf_pc, if_pos (h.mpr hc)]
  · rw [State.skipIf_pc, if_neg (h.not.mpr hc)]

/-- Settles O26: the two shapes of the stack; the frame is the one every completed execute step keeps. -/
theorem retPopsAndResumesAfterCall : Obligations.RetPopsAndResumesAfterCall := by
  refine fun s => ⟨exec_ret_of_stack_nil, fun rest r h => ?_⟩
  have hexec := exec_ret_of_stack_append h
  exact ⟨_, hexec, rfl, rfl, (exec_frame hexec).mono (by simp [Instr.writes])⟩

/-- Settles O27: the jump writes pc only, with the operand widened to 16 bits. -/
theorem jpSetsPc : Obligations.JpSetsPc :=
  fun s nnn => ⟨_, rfl, addrOperand_toNat nnn, (FrameBut.refl [] s).setPc _⟩

/-- Settles O29: each instruction is a skip on the test that decides its condition. -/
theorem immediateSkips : Obligations.ImmediateSkips :=
  fun _ _ _ => ⟨⟨_, rfl, skipsIf_skipIf beq_iff_eq⟩, ⟨_, rfl, skipsIf_skipIf bne_iff_ne⟩⟩

/-- Settles O30: each instruction is a skip on the test that decides its condition, X = Y included. -/
theorem registerSkips : Obligations.RegisterSkips :=
  fun _ _ _ => ⟨⟨_, rfl, skipsIf_skipIf beq_iff_eq⟩, ⟨_, rfl, skipsIf_skipIf bne_iff_ne⟩⟩

end Sys2Proof.Machine

/-! What the ALU instructions that write no flag do (42_alu.md R180 to R185), and obligations O33 to O36. -/

namespace Sys2Proof.Machine

/-- One register write, then the advance (40_cycle_driver.md R125): VF is a register like any other here, so it changes only
when it is the one written. -/
theorem writesOnly_writeV_advance (s : State) (x : Reg) (v : Byte) : WritesOnly x v s (s.writeV x v).advance := by
  refine ⟨?value, ?others, rfl, ?frame⟩
  case value => rw [State.advance_readV, State.readV_writeV_same]
  case others =>
    intro r hr
    rw [State.advance_readV, State.readV_writeV_ne s v (List.ne_of_not_mem_cons hr)]
  case frame => exact (frameBut_writeV.setPc _).mono (by simp)

/-- Settles O33: the value written is the immediate. -/
theorem ldImmLoadsByte : Obligations.LdImmLoadsByte :=
  fun s x kk => ⟨_, rfl, writesOnly_writeV_advance s x kk⟩

/-- Settles O34: byte addition is the sum of the naturals modulo 256. -/
theorem addImmAddsWithoutFlag : Obligations.AddImmAddsWithoutFlag := by
  intro s x kk
  have hsum : BitVec.ofNat 8 (((s.readV x).toNat + kk.toNat) % 256) = s.readV x + kk :=
    BitVec.eq_of_toNat_eq (by simp)
  rw [hsum]
  exact ⟨_, rfl, writesOnly_writeV_advance s x (s.readV x + kk)⟩

/-- Settles O35: the value written is the source register's, read before the write. -/
theorem ldRegMoves : Obligations.LdRegMoves :=
  fun s x y => ⟨_, rfl, writesOnly_writeV_advance s x (s.readV y)⟩

/-- Settles O36: the three write the or, and, exclusive or of the two bytes, whose bits the library gives. -/
theorem logicIsBitwiseWithoutFlag : Obligations.LogicIsBitwiseWithoutFlag := by
  refine fun s x y => ⟨?or, ?and, ?xor⟩
  case or => exact ⟨_, _, rfl, writesOnly_writeV_advance s x _, fun _ _ => BitVec.getLsbD_or⟩
  case and => exact ⟨_, _, rfl, writesOnly_writeV_advance s x _, fun _ _ => BitVec.getLsbD_and⟩
  case xor => exact ⟨_, _, rfl, writesOnly_writeV_advance s x _, fun _ _ => BitVec.getLsbD_xor⟩

end Sys2Proof.Machine

/-! What the instructions that set the index register do (43_index_and_memory.md R210 to R212), and obligations O42 to O44. -/

namespace Sys2Proof.Machine

/-- The modulus of R211: masking the sum to 12 bits keeps its remainder by 4096. -/
theorem addIndex_toNat (i : Word) (vx : Byte) : (addIndex i vx).toNat = (i.toNat + vx.toNat) % 4096 := by
  have hmask : (i.toNat + vx.toNat) &&& 0xFFF = (i.toNat + vx.toNat) % 4096 := Nat.and_two_pow_sub_one_eq_mod _ 12
  rw [addIndex, hmask, BitVec.toNat_ofNat]
  exact Nat.mod_eq_of_lt (by omega)

theorem fontDigit_eq_mod (vx : Byte) : fontDigit vx = vx.toNat % 16 :=
  Nat.and_two_pow_sub_one_eq_mod _ 4

/-- No glyph's address reaches the word's modulus. -/
theorem glyphAddr_toNat {d : Nat} (hd : d < 16) : (glyphAddr d).toNat = 5 * d := by
  rw [glyphAddr, glyphSize, BitVec.toNat_ofNat]
  exact Nat.mod_eq_of_lt (by omega)

theorem exec_ldF_of_digit_lt {s : State} {x : Reg} (h : (s.readV x).toNat % 16 < 9) :
    exec (.ldF x) s = .next { s with I := glyphAddr ((s.readV x).toNat % 16) }.advance := by
  simp only [exec, execLdF, fontDigit_eq_mod]
  exact if_neg (Nat.not_le.mpr h)

theorem exec_ldF_of_le_digit {s : State} {x : Reg} (h : 9 ≤ (s.readV x).toNat % 16) :
    exec (.ldF x) s = .fault (.unknownOpcode s.op) := by
  simp only [exec, execLdF, fontDigit_eq_mod]
  exact if_pos h

/-- One write of I, then the advance (40_cycle_driver.md R125): every register, VF included, is outside the list. -/
theorem frameBut_setI_advance (s : State) (w : Word) : FrameBut [.index, .pc] s { s with I := w }.advance :=
  (frameBut_setI.setPc _).mono (by simp)

/-- Settles O42: the value written is the operand widened to 16 bits. -/
theorem ldISetsIndex : Obligations.LdISetsIndex :=
  fun s nnn => ⟨_, rfl, addrOperand_toNat nnn, rfl, frameBut_setI_advance s _⟩

/-- Settles O43: the value written is the masked sum of I and the register. -/
theorem addIWrapsAtTwelveBits : Obligations.AddIWrapsAtTwelveBits :=
  fun s x => ⟨_, rfl, addIndex_toNat s.I (s.readV x), rfl, frameBut_setI_advance s _⟩

/-- Settles O44: the digit decides between the glyph's address and the failure. -/
theorem ldFPointsAtGlyph : Obligations.LdFPointsAtGlyph := by
  refine fun s x => ⟨fun h => ?glyph, exec_ldF_of_le_digit⟩
  case glyph => exact ⟨_, exec_ldF_of_digit_lt h, glyphAddr_toNat (by omega), rfl, frameBut_setI_advance s _⟩

end Sys2Proof.Machine

/-! What the instruction that clears the screen does (44_display.md R240), and obligation O49. -/

namespace Sys2Proof.Machine

/-- One write of the framebuffer, then the advance (40_cycle_driver.md R125): every register, VF included, is outside the list. -/
theorem frameBut_setFb_advance (s : State) (fb : Framebuffer) :
    FrameBut [.framebuffer, .pc] s { s with fb := fb }.advance :=
  (frameBut_setFb.setPc _).mono (by simp)

/-- Settles O49: the framebuffer written is the cleared one, whose cells `cell_clear` reads as off. -/
theorem clsClearsEveryCell : Obligations.ClsClearsEveryCell :=
  fun s => ⟨_, rfl, fun k => Framebuffer.cell_clear k.val, rfl, frameBut_setFb_advance s Framebuffer.clear⟩

end Sys2Proof.Machine

/-! What the instructions that read and set the timers do (45_input_timers_random.md R263, R265, R266), and obligations O54
and O56. -/

namespace Sys2Proof.Machine

/-- One write of the delay timer, then the advance (40_cycle_driver.md R125). -/
theorem frameBut_setDT_advance (s : State) (b : Byte) : FrameBut [.delayTimer, .pc] s { s with DT := b }.advance :=
  (frameBut_setDT.setPc _).mono (by simp)

/-- One write of the sound timer, then the advance (40_cycle_driver.md R125). -/
theorem frameBut_setST_advance (s : State) (b : Byte) : FrameBut [.soundTimer, .pc] s { s with ST := b }.advance :=
  (frameBut_setST.setPc _).mono (by simp)

/-- Settles O54: the value written is DT as the execute step finds it, before the cycle's end ticks it. -/
theorem ldVDTReadsDelayTimer : Obligations.LdVDTReadsDelayTimer :=
  fun s x => ⟨_, rfl, writesOnly_writeV_advance s x s.DT⟩

/-- Settles O56: the timer written is the one the cycle's end ticks (40_cycle_driver.md R126). -/
theorem timersAreSet : Obligations.TimersAreSet := by
  refine fun s x => ⟨?delay, ?sound⟩
  case delay => exact ⟨_, rfl, rfl, timerTick_toNat (s.readV x), rfl, frameBut_setDT_advance s _⟩
  case sound => exact ⟨_, rfl, rfl, timerTick_toNat (s.readV x), rfl, frameBut_setST_advance s _⟩

end Sys2Proof.Machine

/-! What the decoder makes of a word (30_encoding.md R91 to R99), and obligations O3 to O8. -/

namespace Sys2Proof

/-! #### A word from its fields -/

theorem formatA_fields (w : Word) : formatA (fieldF w) (fieldNNN w) = w := by
  apply BitVec.eq_of_toNat_eq
  rw [formatA_toNat, fieldF_val, fieldNNN_toNat]
  omega

theorem formatXKK_fields (w : Word) : formatXKK (fieldF w) (fieldX w) (fieldKK w) = w := by
  apply BitVec.eq_of_toNat_eq
  rw [formatXKK_toNat, fieldF_val, fieldX_val, fieldKK_toNat]
  omega

theorem formatXYN_fields (w : Word) : formatXYN (fieldF w) (fieldX w) (fieldY w) (fieldN w) = w := by
  apply BitVec.eq_of_toNat_eq
  rw [formatXYN_toNat, fieldF_val, fieldX_val, fieldY_val, fieldN_val]
  omega

/-! #### Words that agree under a mask agree on the fields it keeps -/

theorem fieldF_eq_of_and {w m v : Word} (h : w &&& m = v) (hm : m.extractLsb' 12 4 = BitVec.allOnes 4) :
    fieldF w = fieldF v := by
  rw [← h, fieldF, fieldF, BitVec.extractLsb'_and, hm, BitVec.and_allOnes]

theorem fieldX_eq_of_and {w m v : Word} (h : w &&& m = v) (hm : m.extractLsb' 8 4 = BitVec.allOnes 4) :
    fieldX w = fieldX v := by
  rw [← h, fieldX, fieldX, BitVec.extractLsb'_and, hm, BitVec.and_allOnes]

theorem fieldY_eq_of_and {w m v : Word} (h : w &&& m = v) (hm : m.extractLsb' 4 4 = BitVec.allOnes 4) :
    fieldY w = fieldY v := by
  rw [← h, fieldY, fieldY, BitVec.extractLsb'_and, hm, BitVec.and_allOnes]

theorem fieldN_eq_of_and {w m v : Word} (h : w &&& m = v) (hm : m.extractLsb' 0 4 = BitVec.allOnes 4) :
    fieldN w = fieldN v := by
  rw [← h, fieldN, fieldN, BitVec.extractLsb'_and, hm, BitVec.and_allOnes]

theorem fieldKK_eq_of_and {w m v : Word} (h : w &&& m = v) (hm : m.extractLsb' 0 8 = BitVec.allOnes 8) :
    fieldKK w = fieldKK v := by
  rw [← h, fieldKK, fieldKK, BitVec.extractLsb'_and, hm, BitVec.and_allOnes]

/-! #### Decoding an encoding -/

/-- Settles O4: each format's fields read back, so the decoder's two levels find the instruction's own branch. -/
theorem decodeOfEncodeIsIdentity : Obligations.DecodeOfEncodeIsIdentity := by
  intro i
  cases i with
  | jp | call | ldI | jpV0 => simp [encode, decode, fieldF_formatA, fieldNNN_formatA]
  | seImm | sneImm | ldImm | addImm | rnd =>
    simp [encode, decode, fieldF_formatXKK, fieldX_formatXKK, fieldKK_formatXKK]
  | seReg | sneReg | drw =>
    simp [encode, decode, fieldF_formatXYN, fieldX_formatXYN, fieldY_formatXYN, fieldN_formatXYN]
  | cls | ret => simp [encode, decode, decodeFamily0, fieldF_formatXKK, fieldKK_formatXKK]
  | ldReg | or | and | xor | addReg | sub | shr | subn | shl =>
    simp [encode, decode, decodeFamily8, fieldF_formatXYN, fieldX_formatXYN, fieldY_formatXYN, fieldN_formatXYN]
  | skp | sknp => simp [encode, decode, decodeFamilyE, fieldF_formatXKK, fieldX_formatXKK, fieldKK_formatXKK]
  | ldVDT | ldK | ldDT | ldST | addI | ldF | ldB | ldMI | ldVI =>
    simp [encode, decode, decodeFamilyF, fieldF_formatXKK, fieldX_formatXKK, fieldKK_formatXKK]

/-! #### The word a decoded instruction spells -/

theorem formatA_eq_of_fields {w : Word} {f : Fin 16} (hF : (fieldF w).val = f.val) :
    formatA f (fieldNNN w) = w &&& 0xFFFF := by
  obtain rfl : fieldF w = f := Fin.ext hF
  exact (formatA_fields w).trans BitVec.and_allOnes.symm

theorem formatXKK_eq_of_fields {w : Word} {f : Fin 16} {kk : Byte} (hF : (fieldF w).val = f.val)
    (hKK : (fieldKK w).toNat = kk.toNat) : formatXKK f (fieldX w) kk = w &&& 0xFFFF := by
  obtain rfl : fieldF w = f := Fin.ext hF
  obtain rfl : fieldKK w = kk := BitVec.eq_of_toNat_eq hKK
  exact (formatXKK_fields w).trans BitVec.and_allOnes.symm

theorem formatXYN_eq_of_fields {w : Word} {f n : Fin 16} (hF : (fieldF w).val = f.val)
    (hN : (fieldN w).val = n.val) : formatXYN f (fieldX w) (fieldY w) n = w &&& 0xFFFF := by
  obtain rfl : fieldF w = f := Fin.ext hF
  obtain rfl : fieldN w = n := Fin.ext hN
  exact (formatXYN_fields w).trans BitVec.and_allOnes.symm

theorem formatXYN_mask_FFF0 (f : Fin 16) (x y : Reg) (n : Fin 16) : formatXYN f x y n &&& 0xFFF0 = formatXYN f x y 0 := by
  apply BitVec.eq_of_getLsbD_eq
  intro i hi
  unfold formatXYN
  interval_cases i <;> simp [nibble]

theorem formatXYN_mask_FF0F (f : Fin 16) (x y : Reg) (n : Fin 16) : formatXYN f x y n &&& 0xFF0F = formatXYN f x 0 n := by
  apply BitVec.eq_of_getLsbD_eq
  intro i hi
  unfold formatXYN
  interval_cases i <;> simp [nibble]

/-- Formats Z: op[11:8] is ignored. -/
theorem formatXKK_eq_of_fields_F0FF {w : Word} {f : Fin 16} {kk : Byte} (hF : (fieldF w).val = f.val)
    (hKK : (fieldKK w).toNat = kk.toNat) : formatXKK f 0 kk = w &&& 0xF0FF := by
  obtain rfl : fieldF w = f := Fin.ext hF
  obtain rfl : fieldKK w = kk := BitVec.eq_of_toNat_eq hKK
  rw [← formatXKK_mask_F0FF (fieldF w) (fieldX w), formatXKK_fields]

/-- Format XY: op[3:0] is ignored. -/
theorem formatXYN_eq_of_fields_FFF0 {w : Word} {f : Fin 16} (hF : (fieldF w).val = f.val) :
    formatXYN f (fieldX w) (fieldY w) 0 = w &&& 0xFFF0 := by
  obtain rfl : fieldF w = f := Fin.ext hF
  rw [← formatXYN_mask_FFF0 _ _ _ (fieldN w), formatXYN_fields]

/-- The shifts: op[7:4] is ignored. -/
theorem formatXYN_eq_of_fields_FF0F {w : Word} {f n : Fin 16} (hF : (fieldF w).val = f.val)
    (hN : (fieldN w).val = n.val) : formatXYN f (fieldX w) 0 n = w &&& 0xFF0F := by
  obtain rfl : fieldF w = f := Fin.ext hF
  obtain rfl : fieldN w = n := Fin.ext hN
  rw [← formatXYN_mask_FF0F _ _ (fieldY w), formatXYN_fields]

/-- The operand is the value of its bit field in the word (30_encoding.md R91). -/
def Operand.ReadFrom (w : Word) (o : Operand) : Prop := o.value = w.toNat / 2 ^ o.lo % 2 ^ (o.hi + 1 - o.lo)

theorem Operand.readFrom_x (w : Word) : (Operand.x (fieldX w)).ReadFrom w := fieldX_val w

theorem Operand.readFrom_y (w : Word) : (Operand.y (fieldY w)).ReadFrom w := fieldY_val w

theorem Operand.readFrom_n (w : Word) : (Operand.n (fieldN w)).ReadFrom w := by
  simp [Operand.ReadFrom, Operand.n, fieldN_val]

theorem Operand.readFrom_kk (w : Word) : (Operand.kk (fieldKK w)).ReadFrom w := by
  simp [Operand.ReadFrom, Operand.kk, fieldKK_toNat]

theorem Operand.readFrom_nnn (w : Word) : (Operand.nnn (fieldNNN w)).ReadFrom w := by
  simp [Operand.ReadFrom, Operand.nnn, fieldNNN_toNat]

theorem operands_nnn_readFrom (w : Word) : ∀ o ∈ [Operand.nnn (fieldNNN w)], o.ReadFrom w := by
  simp [Operand.readFrom_nnn]

theorem operands_x_readFrom (w : Word) : ∀ o ∈ [Operand.x (fieldX w)], o.ReadFrom w := by
  simp [Operand.readFrom_x]

theorem operands_x_kk_readFrom (w : Word) : ∀ o ∈ [Operand.x (fieldX w), .kk (fieldKK w)], o.ReadFrom w := by
  simp [Operand.readFrom_x, Operand.readFrom_kk]

theorem operands_x_y_readFrom (w : Word) : ∀ o ∈ [Operand.x (fieldX w), .y (fieldY w)], o.ReadFrom w := by
  simp [Operand.readFrom_x, Operand.readFrom_y]

theorem operands_x_y_n_readFrom (w : Word) : ∀ o ∈ [Operand.x (fieldX w), .y (fieldY w), .n (fieldN w)], o.ReadFrom w := by
  simp [Operand.readFrom_x, Operand.readFrom_y, Operand.readFrom_n]

/-- The instruction's encoding is the word up to ignored bits, and its operands are the word's fields. -/
def Instr.Spells (i : Instr) (w : Word) : Prop := encode i = w &&& i.usedBits ∧ ∀ o ∈ i.operands, o.ReadFrom w

theorem spells_of_decodeFamily0 {w : Word} {i : Instr} (hF : (fieldF w).val = 0) (h : decodeFamily0 w = .ok i) :
    i.Spells w := by
  unfold decodeFamily0 at h
  split at h
  case h_1 hKK | h_2 hKK => cases h; exact ⟨formatXKK_eq_of_fields_F0FF hF hKK, by simp [Instr.operands]⟩
  case h_3 => cases h

theorem spells_of_decodeFamily8 {w : Word} {i : Instr} (hF : (fieldF w).val = 8) (h : decodeFamily8 w = .ok i) :
    i.Spells w := by
  unfold decodeFamily8 at h
  split at h
  case h_7 hN | h_9 hN => cases h; exact ⟨formatXYN_eq_of_fields_FF0F hF hN, operands_x_readFrom w⟩
  case h_10 => cases h
  all_goals
    cases h
    exact ⟨formatXYN_eq_of_fields hF ‹_›, operands_x_y_readFrom w⟩

theorem spells_of_decodeFamilyE {w : Word} {i : Instr} (hF : (fieldF w).val = 0xE) (h : decodeFamilyE w = .ok i) :
    i.Spells w := by
  unfold decodeFamilyE at h
  split at h
  case h_1 hKK | h_2 hKK => cases h; exact ⟨formatXKK_eq_of_fields hF hKK, operands_x_readFrom w⟩
  case h_3 => cases h

theorem spells_of_decodeFamilyF {w : Word} {i : Instr} (hF : (fieldF w).val = 0xF) (h : decodeFamilyF w = .ok i) :
    i.Spells w := by
  unfold decodeFamilyF at h
  split at h
  case h_10 => cases h
  all_goals
    cases h
    exact ⟨formatXKK_eq_of_fields hF ‹_›, operands_x_readFrom w⟩

/-- A word decodes only to the instruction it spells. -/
theorem spells_of_decode {w : Word} {i : Instr} (h : decode w = .ok i) : i.Spells w := by
  unfold decode at h
  split at h
  case h_1 hF => exact spells_of_decodeFamily0 hF h
  case h_9 hF => exact spells_of_decodeFamily8 hF h
  case h_15 hF => exact spells_of_decodeFamilyE hF h
  case h_16 hF => exact spells_of_decodeFamilyF hF h
  case h_2 hF | h_3 hF | h_11 hF | h_12 hF =>
    cases h; exact ⟨formatA_eq_of_fields hF, operands_nnn_readFrom w⟩
  case h_4 hF | h_5 hF | h_7 hF | h_8 hF | h_13 hF =>
    cases h; exact ⟨formatXKK_eq_of_fields hF rfl, operands_x_kk_readFrom w⟩
  case h_6 hF | h_10 hF => cases h; exact ⟨formatXYN_eq_of_fields_FFF0 hF, operands_x_y_readFrom w⟩
  case h_14 hF => cases h; exact ⟨formatXYN_eq_of_fields hF rfl, operands_x_y_n_readFrom w⟩
  case h_17 => cases h

/-- The converse of `spells_of_decode`: the used bits decide. -/
theorem decode_of_usedBits {w : Word} {i : Instr} (h : w &&& i.usedBits = encode i) : decode w = .ok i := by
  cases i with
  | cls | ret =>
    have hF := fieldF_eq_of_and h (by decide)
    have hKK := fieldKK_eq_of_and h (by decide)
    rw [encode, fieldF_formatXKK] at hF
    rw [encode, fieldKK_formatXKK] at hKK
    simp [decode, decodeFamily0, hF, hKK]
  | seReg | sneReg =>
    simp only [encode, Instr.usedBits] at h
    have hF := fieldF_eq_of_and h (by decide)
    have hX := fieldX_eq_of_and h (by decide)
    have hY := fieldY_eq_of_and h (by decide)
    rw [fieldF_formatXYN] at hF
    rw [fieldX_formatXYN] at hX
    rw [fieldY_formatXYN] at hY
    simp [decode, hF, hX, hY]
  | shr | shl =>
    simp only [encode, Instr.usedBits] at h
    have hF := fieldF_eq_of_and h (by decide)
    have hX := fieldX_eq_of_and h (by decide)
    have hN := fieldN_eq_of_and h (by decide)
    rw [fieldF_formatXYN] at hF
    rw [fieldX_formatXYN] at hX
    rw [fieldN_formatXYN] at hN
    simp [decode, decodeFamily8, hF, hX, hN]
  | _ =>
    obtain rfl : w = encode _ := BitVec.and_allOnes.symm.trans h
    exact decodeOfEncodeIsIdentity _

/-- Settles O5: a word decodes to an instruction exactly when the used bits are those of its encoding. -/
theorem decodeIgnoresOnlyUnusedBits : Obligations.DecodeIgnoresOnlyUnusedBits := by
  intro w i h
  have hw : encode i = w &&& i.usedBits := (spells_of_decode h).1
  exact ⟨hw, fun w' h' => decode_of_usedBits (h'.trans hw.symm)⟩

/-! #### The rows of the opcode map -/

theorem Instr.row_mem_opcodeMap (i : Instr) : i.row ∈ opcodeMap := by
  cases i <;> simp [opcodeMap, oneOfEachRow, Instr.row]

/-- An encoding matches the instruction's row: the row's mask clears the operands. -/
theorem encode_and_mask (i : Instr) : encode i &&& i.row.mask = i.row.pattern := by
  cases i with
  | jp | call | ldI | jpV0 => exact (formatA_mask_F000 ..).trans rfl
  | seImm | sneImm | ldImm | addImm | rnd => exact (formatXKK_mask_F000 ..).trans rfl
  | seReg | sneReg | drw => exact (formatXYN_mask_F000 ..).trans rfl
  | ldReg | or | and | xor | addReg | sub | shr | subn | shl => exact (formatXYN_mask_F00F ..).trans rfl
  | _ => exact (formatXKK_mask_F0FF ..).trans rfl

/-- No row looks at an ignored bit. -/
theorem usedBits_and_mask (i : Instr) : i.usedBits &&& i.row.mask = i.row.mask := by
  cases i with
  | cls | ret => rfl
  | _ => dsimp only [Instr.usedBits, Instr.row]; decide

/-- A word that matches an instruction's row decodes to an instruction of that row. -/
theorem decode_of_row {w : Word} {j : Instr} (h : w &&& j.row.mask = j.row.pattern) :
    ∃ i, decode w = .ok i ∧ i.row = j.row := by
  cases j with
  | cls | ret =>
    have hF := fieldF_eq_of_and h (by decide)
    have hKK := fieldKK_eq_of_and h (by decide)
    simp only [decode, decodeFamily0, hF, hKK]
    exact ⟨_, rfl, rfl⟩
  | skp | sknp =>
    simp only [Instr.row] at h
    have hF := fieldF_eq_of_and h (by decide)
    have hKK := fieldKK_eq_of_and h (by decide)
    simp only [decode, decodeFamilyE, hF, hKK]
    exact ⟨_, rfl, rfl⟩
  | ldVDT | ldK | ldDT | ldST | addI | ldF | ldB | ldMI | ldVI =>
    simp only [Instr.row] at h
    have hF := fieldF_eq_of_and h (by decide)
    have hKK := fieldKK_eq_of_and h (by decide)
    simp only [decode, decodeFamilyF, hF, hKK]
    exact ⟨_, rfl, rfl⟩
  | ldReg | or | and | xor | addReg | sub | shr | subn | shl =>
    simp only [Instr.row] at h
    have hF := fieldF_eq_of_and h (by decide)
    have hN := fieldN_eq_of_and h (by decide)
    simp only [decode, decodeFamily8, hF, hN]
    exact ⟨_, rfl, rfl⟩
  | _ =>
    simp only [Instr.row] at h
    have hF := fieldF_eq_of_and h (by decide)
    simp only [decode, hF]
    exact ⟨_, rfl, rfl⟩
/-- Settles O6: `spells_of_decode` for the decoded words, `decode_of_row` for the words that match a row. -/
theorem decodeSelectsRowAndReadsFields : Obligations.DecodeSelectsRowAndReadsFields := by
  refine fun w => ⟨fun i h => ?decoded, fun r hr h => ?matching⟩
  case decoded =>
    obtain ⟨hw, hops⟩ := spells_of_decode h
    have hrow : w &&& i.row.mask = i.row.pattern := by
      rw [← usedBits_and_mask, ← BitVec.and_assoc, ← hw, encode_and_mask]
    exact ⟨i.row_mem_opcodeMap, hrow, hops⟩
  case matching =>
    obtain ⟨j, -, rfl⟩ := List.mem_map.1 hr
    exact decode_of_row h

/-! #### Rejection -/

theorem decodeFamily0_eq_error_iff (w : Word) :
    decodeFamily0 w = .error (.unknownOpcode w) ↔ w.toNat % 256 ≠ 0xE0 ∧ w.toNat % 256 ≠ 0xEE := by
  unfold decodeFamily0
  rw [fieldKK_toNat]
  split <;> simp_all

theorem decodeFamily8_eq_error_iff (w : Word) :
    decodeFamily8 w = .error (.unknownOpcode w) ↔ 8 ≤ w.toNat % 16 ∧ w.toNat % 16 ≠ 0xE := by
  unfold decodeFamily8
  rw [fieldN_val]
  split <;> simp_all
  omega

theorem decodeFamilyE_eq_error_iff (w : Word) :
    decodeFamilyE w = .error (.unknownOpcode w) ↔ w.toNat % 256 ≠ 0x9E ∧ w.toNat % 256 ≠ 0xA1 := by
  unfold decodeFamilyE
  rw [fieldKK_toNat]
  split <;> simp_all

theorem decodeFamilyF_eq_error_iff (w : Word) :
    decodeFamilyF w = .error (.unknownOpcode w) ↔
      w.toNat % 256 ∉ [0x07, 0x0A, 0x15, 0x18, 0x1E, 0x29, 0x33, 0x55, 0x65] := by
  unfold decodeFamilyF
  rw [fieldKK_toNat]
  split <;> simp_all

/-- Settles O7: the four families with a second level reject what it does not list, the others nothing. -/
theorem decodeRejectsExactlyUnknownWords : Obligations.DecodeRejectsExactlyUnknownWords := by
  refine fun w => ⟨?_, fun r => Machine.decode_error⟩
  have := w.isLt
  unfold decode
  rw [fieldF_val]
  split
  case h_1 hF => simp [hF, decodeFamily0_eq_error_iff]
  case h_9 hF => simp [hF, decodeFamily8_eq_error_iff]
  case h_15 hF => simp [hF, decodeFamilyE_eq_error_iff]
  case h_16 hF => simp [hF, decodeFamilyF_eq_error_iff]
  case h_17 =>  -- no fifth bit
    simp only [imp_false] at *; omega
  all_goals simp [*]

/-! #### Closed facts about the map -/

/-- Settles O3: the decoder evaluated on each word. -/
theorem specWordsDecode : Obligations.SpecWordsDecode := by
  unfold Obligations.SpecWordsDecode
  decide

/-- Settles O8: the 34 rows compared pair by pair. -/
theorem opcodeRowsNeverOverlap : Obligations.OpcodeRowsNeverOverlap := by
  unfold Obligations.OpcodeRowsNeverOverlap
  decide

end Sys2Proof

/-! What the instructions that may fail answer (60_exceptions.md R301), and obligations O13, O18, O19, O20. -/

namespace Sys2Proof.Machine

/-! #### One equation per instruction that may fail -/

theorem State.stackFull_iff (s : State) : s.stackFull = true ↔ s.config.stackDepth = some s.sp := by
  unfold State.stackFull
  cases s.config.stackDepth with
  | none => simp
  | some d => rw [Option.some.injEq, beq_iff_eq, eq_comm]

theorem exec_call (nnn : Addr12) (s : State) :
    exec (.call nnn) s = if s.config.stackDepth = some s.sp then .fault .stackOverflow
      else .next ({ s with stack := s.stack ++ [s.pc] }.jump (addrOperand nnn)) := by
  simp only [exec, execCall, State.stackFull_iff, raise]

theorem exec_ldF (x : Reg) (s : State) :
    exec (.ldF x) s = if 9 ≤ (s.readV x).toNat % 16 then .fault (.unknownOpcode s.op)
      else .next { s with I := glyphAddr ((s.readV x).toNat % 16) }.advance := by
  simp only [exec, execLdF, fontDigit_eq_mod, raise]

theorem commit_skipOnKey (s : State) (vx : Byte) (c : Bool → Bool) :
    commit (skipOnKey s vx c) = if h : 15 < vx.toNat then .fault (.keyIndexOutOfRange vx)
      else .next (s.skipIf (c (s.key ⟨vx.toNat, by omega⟩))) := by
  unfold skipOnKey keyIndex
  by_cases h : 15 < vx.toNat
  · simp [h, Nat.not_lt.mpr (Nat.succ_le_of_lt h), commit, raise]
  · simp [h, show vx.toNat < 16 by omega, commit]

/-- The bytes of memory from `a` on. -/
def State.bytesFrom (s : State) (a n : Nat) : List Byte := (List.range n).map fun k => s.byteAt (a + k)

@[simp] theorem State.length_bytesFrom (s : State) (a n : Nat) : (s.bytesFrom a n).length = n := by
  simp [State.bytesFrom]

@[simp] theorem State.getElem_bytesFrom (s : State) (a n k : Nat) (h : k < (s.bytesFrom a n).length) :
    (s.bytesFrom a n)[k] = s.byteAt (a + k) := by
  simp [State.bytesFrom]

/-- The end of the instructions that load a block of memory. -/
theorem commit_loadBlock (s : State) (a n : Nat) (g : List Byte → State) :
    commit ((loadBlock s a n).map g) = if 0 < n ∧ 4095 < a + n - 1 then .fault (.addressOutOfRange 4096)
      else .next (g (s.bytesFrom a n)) := by
  rw [loadBlock_eq]
  split <;> rfl

/-- The end of the instructions that store a block at I. -/
theorem commit_storeBlock (s : State) (bs : List Byte) (hne : bs ≠ []) :
    commit ((storeBlock s s.I.toNat bs).map State.advance) =
      if 4095 < s.I.toNat + bs.length - 1 then .fault (.addressOutOfRange 4096)
      else if s.fontStoreBlocked then .fault (.addressOutOfRange s.I.toNat)
      else .next { s with M := Memory.load s.config.font s.M s.I.toNat bs }.advance := by
  rw [storeBlock_eq s s.I.toNat bs hne]
  simp only [State.fontStoreBlocked, fontSize, Nat.lt_succ_iff]
  split
  · rfl
  · split <;> rfl

theorem exec_drw (x y : Reg) (n : Fin 16) (s : State) :
    exec (.drw x y n) s = if 0 < n.val ∧ 4095 < s.I.toNat + n.val - 1 then .fault (.addressOutOfRange 4096)
      else .next (s.drawRows x y (s.bytesFrom s.I.toNat n.val)).advance :=
  commit_loadBlock s _ _ _

theorem exec_ldVI (x : Reg) (s : State) :
    exec (.ldVI x) s = if 4095 < s.I.toNat + x.val then .fault (.addressOutOfRange 4096)
      else .next (s.writeVs 0 (s.bytesFrom s.I.toNat (x.val + 1))).advance := by
  refine (commit_loadBlock s s.I.toNat (x.val + 1) _).trans ?_
  simp

theorem exec_ldB (x : Reg) (s : State) :
    exec (.ldB x) s = if 4095 < s.I.toNat + 2 then .fault (.addressOutOfRange 4096)
      else if s.fontStoreBlocked then .fault (.addressOutOfRange s.I.toNat)
      else .next { s with M := Memory.load s.config.font s.M s.I.toNat (bcdDigits (s.readV x)) }.advance :=
  commit_storeBlock s (bcdDigits (s.readV x)) (List.cons_ne_nil _ _)

theorem exec_ldMI (x : Reg) (s : State) :
    exec (.ldMI x) s = if 4095 < s.I.toNat + x.val then .fault (.addressOutOfRange 4096)
      else if s.fontStoreBlocked then .fault (.addressOutOfRange s.I.toNat)
      else .next { s with M := Memory.load s.config.font s.M s.I.toNat (s.firstVs x) }.advance := by
  have h := commit_storeBlock s (s.firstVs x) (firstVs_ne_nil s x)
  rwa [State.length_firstVs] at h

/-! #### The failure table -/

/-- Settles O20: only the instructions the table names have a failing branch, and its condition is the table's. -/
theorem instructionFailsExactlyAsTabled : Obligations.InstructionFailsExactlyAsTabled := by
  intro i s
  cases i with
  | ret =>
    rcases List.eq_nil_or_concat' s.stack with h | ⟨rest, r, h⟩
    · simp [execFailure, h, exec_ret_of_stack_nil]
    · simp [execFailure, h, exec_ret_of_stack_append h]
  | call nnn => rw [exec_call, execFailure]; split <;> simp
  | ldF x => rw [exec_ldF, execFailure]; split <;> simp
  | skp x | sknp x =>
    simp only [exec, execSkp, execSknp, commit_skipOnKey, execFailure]
    split <;> simp
  | drw x y n => rw [exec_drw, execFailure]; split <;> simp
  | ldVI x => rw [exec_ldVI, execFailure]; split <;> simp
  | ldB x | ldMI x =>
    simp only [exec_ldB, exec_ldMI, execFailure]
    split
    · simp
    · split <;> simp
  | _ => exact ⟨fun _ h => (nomatch h), fun _ => ⟨_, rfl⟩⟩

/-! #### The cycle's failures (60_exceptions.md R302) -/

/-- Settles O13: what follows the execute step passes its failure on, and ends the cycle otherwise. -/
theorem stepRunsDecodedInstruction : Obligations.StepRunsDecodedInstruction := by
  intro s op i hf hd
  rw [step_of_fetch hf hd]
  exact ⟨fun t h => congrArg finishCycle h, fun f h => congrArg finishCycle h⟩

/-- Settles O19: the fetch's failures, the decoder's, then those of the instruction's own row. -/
theorem cycleFailsExactlyAsTabled : Obligations.CycleFailsExactlyAsTabled := by
  intro s
  unfold State.Safe
  by_cases hout : 4095 < s.pc.toNat
  · simp [cycleFailure, step, fetch_eq, raise, hout]
  by_cases hlast : s.pc.toNat = 4095
  · simp [cycleFailure, step, fetch_eq, raise, hlast]
  have hf : fetch s = .ok s.wordAtPc := by rw [fetch_eq, if_neg hout, if_neg hlast]
  cases hd : decode s.wordAtPc with
  | error r =>
    obtain rfl := decode_error hd
    simp [cycleFailure, step, hf, hd, hout, hlast, raise, rejectFault]
  | ok i =>
    have hc : cycleFailure s = execFailure i (s.latch s.wordAtPc) := by
      simp [cycleFailure, hout, hlast, hd]
    obtain ⟨hfault, hnext⟩ := instructionFailsExactlyAsTabled i (s.latch s.wordAtPc)
    rw [hc, step_of_fetch hf hd]
    refine ⟨fun f h => congrArg finishCycle (hfault f h), fun h => ?_⟩
    obtain ⟨t, ht⟩ := hnext h
    exact ⟨t.endCycle, congrArg finishCycle ht⟩

theorem cycleFailure_of_step_fault {s : State} {f : Fault} (h : step s = .fault f) : cycleFailure s = some f := by
  obtain ⟨hfault, hnext⟩ := cycleFailsExactlyAsTabled s
  cases hc : cycleFailure s with
  | none =>
    obtain ⟨t, ht⟩ := hnext hc
    cases ht.symm.trans h
  | some g =>
    cases (hfault g hc).symm.trans h
    rfl

/-- No failure depends on the cycle's inputs. -/
theorem cycleFailure_with_inputs (s : State) (l : List CycleInput) :
    cycleFailure { s with inputs := l } = cycleFailure s := rfl

/-- Settles O18: the failure is the table's, which no input changes. -/
theorem failingCycleCommitsNothing : Obligations.FailingCycleCommitsNothing := by
  intro inp s t f h
  obtain ⟨hstep, rfl⟩ := cycle_err h
  refine ⟨rfl, fun inp' => ?_⟩
  have hc : cycleFailure t = some f :=
    (cycleFailure_with_inputs t _).symm.trans (cycleFailure_of_step_fault hstep)
  have hagain : step { t with inputs := inp' :: t.inputs } = .fault f :=
    (cycleFailsExactlyAsTabled _).1 f hc
  rw [cycle, hagain]

end Sys2Proof.Machine

/-! What every step keeps (10_state.md R24 to R38), and obligations O23 and O24. -/

namespace Sys2Proof.Machine

/-! #### The invariant under each update of the state -/

section
variable {s : State} (h : s.Inv)
include h

theorem State.Inv.setPc {w : Word} (hw : w.toNat ≤ 0x10FE) : State.Inv { s with pc := w } := { h with pc := hw }

theorem State.Inv.advance (hpc : s.pc.toNat ≤ 4094) : s.advance.Inv :=
  h.setPc (by simp; omega)

theorem State.Inv.skipIf (c : Bool) (hpc : s.pc.toNat ≤ 4094) : (s.skipIf c).Inv :=
  h.setPc (by cases c <;> simp <;> omega)

theorem State.Inv.jump_addrOperand (nnn : Addr12) : (s.jump (addrOperand nnn)).Inv :=
  h.setPc (by rw [addrOperand_toNat]; omega)

theorem State.Inv.writeV (x : Reg) (b : Byte) : (s.writeV x b).Inv := { h with }

theorem State.Inv.writeVs (k : Nat) (bs : List Byte) : (s.writeVs k bs).Inv := by
  induction bs generalizing s k with
  | nil => exact h
  | cons b bs ih => exact ih (h.writeV _ b) (k + 1)

theorem State.Inv.writeWaitKey (x k : Reg) : (s.writeWaitKey x k).Inv := by
  unfold State.writeWaitKey
  split
  · exact h
  · exact h.writeV x _
  · exact h.writeV x _

theorem State.Inv.setFb (fb : Framebuffer) : State.Inv { s with fb := fb } := { h with }

theorem State.Inv.setDT (b : Byte) : State.Inv { s with DT := b } := { h with }

theorem State.Inv.setST (b : Byte) : State.Inv { s with ST := b } := { h with }

theorem State.Inv.setI {w : Word} (hw : w.toNat ≤ 0xFFF) : State.Inv { s with I := w } := { h with index := hw }

theorem State.Inv.load (a : Nat) (bs : List Byte) (hfit : a + bs.length ≤ 4096) :
    State.Inv { s with M := Memory.load s.config.font s.M a bs } :=
  { h with memory := Memory.wf_load h.memory a bs hfit }

theorem State.Inv.pop : State.Inv { s with stack := s.stack.dropLast } :=
  { h with
    stack := fun e he => h.stack e (List.dropLast_subset _ he)
    depth := fun d hd => (List.length_dropLast ▸ Nat.sub_le _ 1).trans (h.depth d hd) }

/-- A push below a finite depth. -/
theorem State.Inv.push {e : Word} (he : e.toNat ≤ 4094) (hroom : s.config.stackDepth ≠ some s.sp) :
    State.Inv { s with stack := s.stack ++ [e] } where
  __ := h
  stack := by simpa [or_imp, forall_and] using ⟨h.stack, he⟩
  depth d hd := by
    have hle : s.sp ≤ d := h.depth d hd
    have hne : s.sp ≠ d := fun heq => hroom (heq ▸ hd)
    have hsp : State.sp { s with stack := s.stack ++ [e] } = s.sp + 1 := List.length_append
    omega

theorem State.Inv.latch (op : Word) : (s.latch op).Inv := { h with }

theorem State.Inv.endCycle : s.endCycle.Inv where
  __ := h
  trace := by
    rw [State.endCycle_trace]
    split
    · exact appendTrace_length _ _ h.trace
    · exact h.trace

end

@[simp] theorem State.writeWaitKey_pc (s : State) (x k : Reg) : (s.writeWaitKey x k).pc = s.pc :=
  frameBut_writeWaitKey .pc (by simp)

/-! #### The invariant under every execute step -/

/-- The sum of BNNN does not reach the word's modulus. -/
theorem jumpV0Target_toNat (nnn : Addr12) (v0 : Byte) : (jumpV0Target nnn v0).toNat = nnn.toNat + v0.toNat := by
  rw [jumpV0Target, BitVec.toNat_ofNat]
  exact Nat.mod_eq_of_lt (by omega)

/-- Where the fetch succeeded, pc is at most 4094, which bounds the next pc and the entry 2NNN pushes. -/
theorem exec_keeps_inv {i : Instr} {s t : State} (h : s.Inv) (hpc : s.pc.toNat ≤ 4094) (he : exec i s = .next t) :
    t.Inv := by
  cases i with
  | seImm | sneImm | seReg | sneReg => cases he; exact h.skipIf _ hpc
  | ldImm | addImm | ldReg | or | and | xor | rnd | ldVDT => cases he; exact (h.writeV _ _).advance hpc
  | addReg | sub | shr | subn | shl => cases he; exact ((h.writeV _ _).writeV _ _).advance hpc
  | jp nnn => cases he; exact h.jump_addrOperand nnn
  | jpV0 nnn => cases he; exact h.setPc (by rw [jumpV0Target_toNat]; omega)
  | cls => cases he; exact (h.setFb _).advance hpc
  | ldDT => cases he; exact (h.setDT _).advance hpc
  | ldST => cases he; exact (h.setST _).advance hpc
  | ldI nnn => cases he; exact (h.setI (by rw [addrOperand_toNat]; omega)).advance hpc
  | addI x => cases he; exact (h.setI (by rw [addIndex_toNat]; omega)).advance hpc
  | ret =>
    simp only [exec, execRet] at he
    split at he
    next => cases he
    next r hr =>
      cases he
      have hle : r.toNat ≤ 4094 := h.stack r (List.mem_of_getLast? hr)
      exact h.pop.setPc (by simp; omega)
  | call nnn =>
    rw [exec_call] at he
    split at he
    next => cases he
    next hroom => cases he; exact (h.push hpc hroom).jump_addrOperand nnn
  | ldF x =>
    rw [exec_ldF] at he
    split at he
    next => cases he
    next => cases he; exact (h.setI (by rw [glyphAddr_toNat] <;> omega)).advance hpc
  | ldK x =>
    simp only [exec, execLdK] at he
    split at he
    next k _ => cases he; exact (h.writeWaitKey x k).advance (by rwa [State.writeWaitKey_pc])
    next => cases he; exact h
  | skp | sknp =>
    obtain ⟨b, rfl⟩ := commit_skipOnKey_next he
    exact h.skipIf b hpc
  | drw x y n =>
    obtain ⟨rows, -, rfl⟩ := commit_map_next he
    exact ((h.setFb _).writeV _ _).advance hpc
  | ldVI x =>
    obtain ⟨bs, -, rfl⟩ := commit_map_next he
    exact (h.writeVs 0 bs).advance (by rwa [State.writeVs_pc])
  | ldB x =>
    rw [exec_ldB] at he
    split at he
    next => cases he
    next hfit =>
      split at he
      next => cases he
      next => cases he; exact (h.load _ _ (Nat.succ_le_succ (Nat.not_lt.mp hfit))).advance hpc
  | ldMI x =>
    rw [exec_ldMI] at he
    split at he
    next => cases he
    next hfit =>
      split at he
      next => cases he
      next => cases he; exact (h.load _ _ (by rw [State.length_firstVs]; omega)).advance hpc

/-! #### Reset and step -/

/-- Settles O23: reset lists no byte and holds no stack entry and no trace. -/
theorem resetMeetsInvariant : Obligations.ResetMeetsInvariant where
  memory := Memory.wf_nil _
  index := by decide
  pc := by decide
  stack := by simp [State.reset]
  depth := by simp [State.reset, defaultConfig]
  trace := by decide

/-- Settles O24: a successful step is a fetch in range, an execute step and the cycle's end, and each keeps the invariant. -/
theorem stepKeepsInvariant : Obligations.StepKeepsInvariant := by
  intro s t h hstep
  obtain ⟨op, i, u, hf, -, he, rfl⟩ := step_next hstep
  have hpc : s.pc.toNat ≤ 4094 := (fetch_ok hf).1
  exact (exec_keeps_inv (h.latch op) hpc he).endCycle

end Sys2Proof.Machine

/-! What an execute step writes and reads (10_state.md R22 to R36, 40_cycle_driver.md R128, R131), and obligations O14, O16, O21,
O22 and O25. -/

namespace Sys2Proof.Machine

/-! #### The registers an execute step writes -/

theorem RegsBut.mono {ps qs : List Reg} {s t : State} (h : RegsBut ps s t) (hsub : ∀ r ∈ ps, r ∈ qs) : RegsBut qs s t :=
  fun r hr => h r fun hm => hr (hsub r hm)

theorem RegsBut.trans {ps : List Reg} {s t u : State} (hst : RegsBut ps s t) (htu : RegsBut ps t u) : RegsBut ps s u :=
  fun r hr => (htu r hr).trans (hst r hr)

theorem regsBut_writeV (s : State) (x : Reg) (b : Byte) : RegsBut [x] s (s.writeV x b) :=
  fun _ hr => s.readV_writeV_ne b (List.ne_of_not_mem_cons hr)

theorem regsBut_writeV_writeV (s : State) (x y : Reg) (a b : Byte) : RegsBut [x, y] s ((s.writeV x a).writeV y b) :=
  ((regsBut_writeV s x a).mono (by simp)).trans ((regsBut_writeV _ y b).mono (by simp))

theorem regsBut_writeWaitKey (s : State) (x k : Reg) :
    RegsBut (if s.config.waitKeyVx = .unchanged then [] else [x]) s (s.writeWaitKey x k) := by
  unfold State.writeWaitKey
  cases s.config.waitKeyVx with
  | unchanged => exact fun _ _ => rfl
  | lowestPressed | draw => exact regsBut_writeV s x _

theorem regsBut_writeVs_bytesFrom (s : State) (x : Reg) (a : Nat) :
    RegsBut ((List.finRange 16).filter (· ≤ x)) s (s.writeVs 0 (s.bytesFrom a (x.val + 1))) := by
  intro r hr
  have hlt : x < r := by simpa using hr
  rw [State.readV_writeVs _ _ _ (by simp), dif_neg (by simp; omega)]

/-- A completed execute step changes no general register outside those listed for its instruction. -/
theorem exec_regsBut {i : Instr} {s t : State} (h : exec i s = .next t) : RegsBut (i.writesRegs s.config) s t := by
  cases i with
  | ldImm | addImm | ldReg | or | and | xor | rnd | ldVDT => cases h; exact regsBut_writeV s _ _
  | addReg | sub | subn => cases h; exact regsBut_writeV_writeV s _ _ _ _
  | shr | shl => cases h; exact (regsBut_writeV_writeV s _ _ _ _).mono (by simp [Instr.writesRegs])
  | drw =>
    obtain ⟨rows, -, rfl⟩ := commit_map_next h
    exact regsBut_writeV { s with fb := _ } VF _
  | ldK x =>
    simp only [exec, execLdK] at h
    split at h
    next k _ => cases h; exact regsBut_writeWaitKey s x k
    next => cases h; exact fun r _ => rfl
  | ldVI x =>
    rw [exec_ldVI] at h
    split at h
    next => cases h
    next => cases h; exact regsBut_writeVs_bytesFrom s x _
  | _ => exact fun r _ => exec_frame h .registers (by simp [Instr.writes]) r

/-- Settles O25: the listed registers and the listed parts. -/
theorem onlyListedWritersWrite : Obligations.OnlyListedWritersWrite :=
  fun _ _ _ h => ⟨exec_regsBut h, exec_frame h⟩

/-! #### The trace -/

/-- No instruction is listed as a writer of these parts. -/
theorem exec_keeps {i : Instr} {s t : State} (h : exec i s = .next t) {p : Part}
    (hp : p ∈ [.trace, .diag, .config, .inputs, .draws]) : p.same s t := by
  have hdisj : ∀ q ∈ Part.pc :: i.writes, q ∉ [.trace, .diag, .config, .inputs, .draws] := by
    cases i <;> simp [Instr.writes]
  exact exec_frame h p fun hmem => hdisj p hmem hp

/-- Settles O14: each part is as `State.endCycle` leaves it. -/
theorem endOfCycleFrame : Obligations.EndOfCycleFrame := by
  refine fun s => ⟨fun p hp => ?_, List.drop_one.symm, rfl⟩
  cases p <;> simp [Part.same] at hp ⊢

theorem appendTrace_of_room {tr : List String} (h : tr.length ≠ 51) (e : String) : appendTrace tr e = tr ++ [e] := by
  rw [appendTrace, if_neg h]

theorem appendTrace_of_full {tr : List String} (h : tr.length = 51) (e : String) :
    appendTrace tr e = tr.drop 1 ++ [e] := by
  rw [appendTrace, if_pos h, List.drop_one]

/-- Settles O16: the execute step leaves trace and toggle, so the cycle's end appends to the old trace. -/
theorem traceIsBoundedFifo : Obligations.TraceIsBoundedFifo := by
  intro s t h
  obtain ⟨op, i, u, -, -, he, rfl⟩ := step_next h
  have htrace : u.trace = s.trace := exec_keeps he (p := .trace) (by simp)
  have hdiag : u.diag = s.diag := exec_keeps he (p := .diag) (by simp)
  rw [State.endCycle_trace, htrace, hdiag]
  refine ⟨fun hd => ?off, fun hd hlen => ?room, fun hd hlen => ?full⟩
  case off => rw [hd]; rfl
  case room => exact ⟨_, by rw [if_pos hd, appendTrace_of_room hlen]⟩
  case full =>
    rw [if_pos hd, appendTrace_of_full hlen]
    exact ⟨_, rfl, by simp [hlen]⟩

/-! #### What an execute step does not read -/

/-- The state with the parts replaced that no instruction reads, but for the listed readers of the inputs. -/
def State.withUnread (s : State) (l : List CycleInput) (tr : List String) (d : Bool) : State :=
  { s with inputs := l, trace := tr, diag := d }

theorem State.writeVs_withUnread (s : State) (l : List CycleInput) (tr : List String) (d : Bool) (k : Nat) (bs : List Byte) :
    (s.withUnread l tr d).writeVs k bs = (s.writeVs k bs).withUnread l tr d := by
  induction bs generalizing s k with
  | nil => rfl
  | cons b bs ih => exact ih (s.writeV _ b) (k + 1)

theorem State.writeWaitKey_withUnread (s : State) (l : List CycleInput) (tr : List String) (d : Bool) (x k : Reg) :
    (s.withUnread l tr d).writeWaitKey x k = (s.writeWaitKey x k).withUnread l tr d := by
  have hw : (s.withUnread l tr d).config.waitKeyVx = s.config.waitKeyVx := rfl
  rw [State.writeWaitKey, State.writeWaitKey, hw]
  cases s.config.waitKeyVx <;> rfl

section
variable {s : State} {l : List CycleInput} {tr : List String} {d : Bool}

/-- An execute step carries the unread parts along: replacing them before it or after it is the same. -/
theorem exec_withUnread {i : Instr} (hkey : i.readsKeypad = false ∨ (s.withUnread l tr d).keypad = s.keypad)
    (hrand : i.readsRand = false ∨ (s.withUnread l tr d).rand = s.rand) :
    exec i (s.withUnread l tr d) = onNext (·.withUnread l tr d) (exec i s) := by
  cases i with
  | rnd x kk =>
    have hr := hrand.resolve_left (by simp [Instr.readsRand])
    simp only [exec, execRnd, hr]
    rfl
  | skp x | sknp x =>
    have hk := hkey.resolve_left (by simp [Instr.readsKeypad])
    simp only [exec, execSkp, execSknp, commit_skipOnKey, State.key, hk, apply_dite (onNext _)]
    rfl
  | ldK x =>
    have hk := hkey.resolve_left (by simp [Instr.readsKeypad])
    have hkeys : (s.withUnread l tr d).key = s.key := funext fun k => congrArg (·.get k) hk
    simp only [exec, execLdK, State.lowestKey, hkeys]
    cases (List.finRange 16).find? s.key with
    | none => rfl
    | some k => simp only [State.writeWaitKey_withUnread]; rfl
  | ret =>
    rcases List.eq_nil_or_concat' s.stack with h | ⟨rest, r, h⟩
    · rw [exec_ret_of_stack_nil h, exec_ret_of_stack_nil (s := s.withUnread l tr d) h]
      rfl
    · rw [exec_ret_of_stack_append h, exec_ret_of_stack_append (s := s.withUnread l tr d) h]
      rfl
  | call | ldF | drw  =>
    simp only [exec_call, exec_ldF, exec_drw, apply_ite (onNext _)]
    rfl
  | ldVI =>
    simp only [exec_ldVI, apply_ite (onNext _), State.writeVs_withUnread]
    rfl
  | ldB | ldMI =>
    simp only [exec_ldB, exec_ldMI, apply_ite (onNext _)]
    rfl
  | _ => rfl

/-- A step from either state: the same failure, or ends of a cycle that differ in the unread parts alone. -/
theorem step_withUnread (hkey : s.fetchesNo Instr.readsKeypad ∨ (s.withUnread l tr d).keypad = s.keypad)
    (hrand : s.fetchesNo Instr.readsRand ∨ (s.withUnread l tr d).rand = s.rand) :
    (∃ f, step s = .fault f ∧ step (s.withUnread l tr d) = .fault f) ∨
      ∃ u : State, u.inputs = s.inputs ∧ u.trace = s.trace ∧ u.diag = s.diag ∧
        step s = .next u.endCycle ∧ step (s.withUnread l tr d) = .next (u.withUnread l tr d).endCycle := by
  cases hc : cycleFailure s with
  | some f => exact .inl ⟨f, (cycleFailsExactlyAsTabled s).1 f hc, (cycleFailsExactlyAsTabled (s.withUnread l tr d)).1 f hc⟩
  | none =>
    obtain ⟨t, ht⟩ := (cycleFailsExactlyAsTabled s).2 hc
    obtain ⟨op, i, u, hf, hd, he, rfl⟩ := step_next ht
    have hi : s.fetches i := ⟨op, hf, hd⟩
    have he' : exec i ((s.latch op).withUnread l tr d) = .next (u.withUnread l tr d) := by
      rw [exec_withUnread (s := s.latch op) (hkey.imp_left fun h => h i hi) (hrand.imp_left fun h => h i hi), he]
      rfl
    refine .inr ⟨u, exec_keeps he (p := .inputs) (by simp), exec_keeps he (p := .trace) (by simp),
      exec_keeps he (p := .diag) (by simp), ht, ?_⟩
    rw [step_of_fetch (s := s.withUnread l tr d) hf hd]
    exact congrArg finishCycle he'

end

theorem State.endCycle_withUnread_of_tail {u : State} {l : List CycleInput} (h : l.tail = u.inputs.tail) :
    (u.withUnread l u.trace u.diag).endCycle = u.endCycle :=
  congrArg (fun inputs => { u.endCycle with inputs := inputs }) h

/-- A cycle answers the same for two inputs that differ only where its instruction, if any, does not read. -/
theorem cycle_eq_of_unread {s : State} {a b : CycleInput}
    (hkey : s.fetchesNo Instr.readsKeypad ∨ b.keypad = a.keypad)
    (hrand : s.fetchesNo Instr.readsRand ∨ b.rand = a.rand) : cycle a s = cycle b s := by
  have hstep := step_withUnread (s := { s with inputs := a :: s.inputs }) (l := b :: s.inputs) (tr := s.trace)
    (d := s.diag) hkey hrand
  have hb : { s with inputs := b :: s.inputs } =
    State.withUnread { s with inputs := a :: s.inputs } (b :: s.inputs) s.trace s.diag := rfl
  rw [cycle, cycle, hb]
  rcases hstep with ⟨f, ha, hb⟩ | ⟨u, hin, htr, hd, ha, hb⟩
  · rw [ha, hb]
  · rw [ha, hb, ← htr, ← hd, State.endCycle_withUnread_of_tail (by rw [hin]; rfl)]

/-- Settles O21: keypad and random byte are inputs like the others that `cycle_eq_of_unread` compares. -/
theorem inputsReadOnlyByTheirInstructions : Obligations.InputsReadOnlyByTheirInstructions :=
  fun _ _ _ _ _ => ⟨fun h => cycle_eq_of_unread (.inl h) (.inr rfl), fun h => cycle_eq_of_unread (.inr rfl) (.inl h)⟩

/-- Settles O22: trace and toggle are unread, and forgotten in the comparison. -/
theorem traceNeverAffectsOtherState : Obligations.TraceNeverAffectsOtherState := by
  intro s tr d
  have hg : { s with trace := tr, diag := d } = s.withUnread s.inputs tr d := rfl
  rw [hg]
  rcases step_withUnread (l := s.inputs) (tr := tr) (d := d) (.inr rfl) (.inr rfl) with
    ⟨f, hs, ht⟩ | ⟨u, hin, -, -, hs, ht⟩
  · rw [hs, ht]
  · rw [hs, ht, ← hin]
    rfl

end Sys2Proof.Machine

/-! What the memory primitives, the fetch and creation do (20_memory.md, 70_reset_and_hazards.md R330 to R333),
and obligations O2, O9, O10, O12. -/

namespace Sys2Proof.Machine

/-! #### One byte -/

/-- Reading any byte after one was written. -/
theorem byteAt_write (s : State) (a c : Nat) (b : Byte) :
    State.byteAt { s with M := Memory.write s.config.font s.M a b } c = if c = a then b else s.byteAt c :=
  Memory.read_write _ _ _ _ _

theorem memRead_of_le {s : State} {a : Nat} (h : a ≤ 4095) : memRead s a = .ok (s.byteAt a) :=
  if_neg (Nat.not_lt.mpr h)

theorem memRead_of_gt {s : State} {a : Nat} (h : 4095 < a) : memRead s a = .error (.addressOutOfRange a) :=
  if_pos h

theorem memWrite_of_gt {s : State} {a : Nat} (b : Byte) (h : 4095 < a) :
    memWrite s a b = .error (.addressOutOfRange a) :=
  if_pos h

theorem memWrite_of_font {s : State} {a : Nat} (b : Byte) (h : a ≤ 79) (hf : s.config.fontStoreFaults = true) :
    memWrite s a b = .error (.addressOutOfRange a) := by
  rw [memWrite, if_neg (by omega), if_pos ⟨hf, Nat.lt_succ_of_le h⟩]

theorem memWrite_ok {s : State} {a : Nat} (b : Byte) (h : a ≤ 4095) (hf : s.config.fontStoreFaults = false ∨ 80 ≤ a) :
    memWrite s a b = .ok { s with M := Memory.write s.config.font s.M a b } := by
  have hfont : ¬ (s.config.fontStoreFaults = true ∧ a < 80) := by
    rintro ⟨hon, hlt⟩
    rcases hf with hoff | hle
    · simp [hoff] at hon
    · omega
  rw [memWrite, if_neg (by omega), if_neg hfont]

/-- Settles O9: the two range checks, then `byteAt_write`. -/
theorem memoryPrimitivesCheckRange : Obligations.MemoryPrimitivesCheckRange := by
  refine fun s a b => ⟨memRead_of_le, fun h => ⟨memRead_of_gt h, memWrite_of_gt b h⟩, memWrite_of_font b,
    fun h hf => ⟨_, memWrite_ok b h hf, ?same, fun c hc => ?other, frameBut_setM⟩⟩
  case same => rw [byteAt_write, if_pos rfl]
  case other => rw [byteAt_write, if_neg hc]

/-! #### Fetch -/

theorem fetch_of_le {s : State} (h : s.pc.toNat ≤ 4094) : fetch s = .ok s.wordAtPc := by
  rw [fetch_eq, if_neg (by omega), if_neg (by omega)]

/-- Settles O10: the three ranges of pc that `fetch_eq` tells apart. -/
theorem fetchReadsBigEndianWord : Obligations.FetchReadsBigEndianWord := by
  refine fun s => ⟨fun h => ⟨_, fetch_of_le h, wordOfBytes_toNat _ _⟩, fun h => ?last, fun h => ?out⟩
  case last => rw [fetch_eq, if_neg (by omega), if_pos h]
  case out => rw [fetch_eq, if_pos h]

/-- The placed word is two byte writes (log 20). -/
theorem byteAt_withFetchWord {s : State} (h : s.pc.toNat ≤ 4094) (w c : Nat) :
    (s.withFetchWord 16 w).byteAt c =
      if c = s.pc.toNat + 1 then loByte (BitVec.ofNat 16 w)
      else if c = s.pc.toNat then hiByte (BitVec.ofNat 16 w) else s.byteAt c := by
  have hw : BitVec.ofNat 16 (w % 2 ^ 16) = BitVec.ofNat 16 w := BitVec.eq_of_toNat_eq (by simp)
  rw [State.withFetchWord, if_neg (Nat.not_lt.mpr h), hw]
  exact (Memory.read_write ..).trans (if_congr Iff.rfl rfl (Memory.read_write ..))

theorem frameBut_withFetchWord (s : State) (w : Nat) : FrameBut [.memory] s (s.withFetchWord 16 w) := by
  unfold State.withFetchWord
  split
  · exact .refl _ s
  · exact frameBut_setM

/-- Settles O12: the fetch puts the two written bytes together again. -/
theorem placedWordIsFetched : Obligations.PlacedWordIsFetched := by
  intro s w h
  have hframe := frameBut_withFetchWord s w
  have hpc : (s.withFetchWord 16 w).pc = s.pc := hframe .pc (by simp)
  refine ⟨?fetched, hframe, fun a h0 h1 => ?others⟩
  case fetched =>
    rw [fetch_of_le (by rwa [hpc]), State.wordAtPc, hpc, byteAt_withFetchWord h, byteAt_withFetchWord h]
    simp
  case others => rw [byteAt_withFetchWord h, if_neg h1, if_neg h0]

/-! #### Creation -/

/-- The state creation loads a ROM into. -/
def createdState (config : Config) (diag : Bool) (rom : List Byte) : State :=
  { State.reset with config := config, diag := diag, M := Memory.load config.font [] 512 rom }

theorem create_of_fits {config : Config} {diag : Bool} {rom : List Byte} (h : rom.length ≤ 3584) :
    create config diag rom = .ok (createdState config diag rom) :=
  if_neg (by simp [memSize, programStart]; omega)

theorem create_of_oversize {config : Config} {diag : Bool} {rom : List Byte} (h : 3584 < rom.length) :
    create config diag rom = .error (.addressOutOfRange 4096) :=
  if_pos (by simp [memSize, programStart]; omega)

theorem byteAt_createdState (config : Config) (diag : Bool) (rom : List Byte) (a : Nat) :
    (createdState config diag rom).byteAt a =
      if h : 512 ≤ a ∧ a < 512 + rom.length then rom[a - 512]'(by omega) else unlisted config.font a :=
  Memory.read_load _ _ _ _ _

/-- Settles O2: the ROM is copied over memory with nothing listed; every other field is the reset one. -/
theorem createLoadsRomOrFails : Obligations.CreateLoadsRomOrFails := by
  refine fun config diag rom => ⟨fun h => ⟨_, create_of_fits h, fun j hj => ?rom, fun a ha => ?font, fun a ha hout => ?zero,
    State.readV_reset, rfl, rfl, rfl, rfl, rfl, fbRead_reset, rfl, rfl, rfl, rfl, ?canonical⟩, create_of_oversize⟩
  case rom => rw [byteAt_createdState, dif_pos (by omega)]; simp
  case font => rw [byteAt_createdState, dif_neg (by omega), unlisted, dif_pos ha]
  case zero => rw [byteAt_createdState, dif_neg (by omega), unlisted, dif_neg (by omega)]
  case canonical => exact Memory.wf_load (Memory.wf_nil _) 512 rom (show 512 + rom.length ≤ 4096 by omega)

end Sys2Proof.Machine

/-! What CALL and JP V0 do (41_control_flow.md R152, R157), and obligations O28, O31 and O32. -/

namespace Sys2Proof.Machine

/-- Settles O28: the two branches of `exec_call`. -/
theorem callPushesItsAddressAndJumps : Obligations.CallPushesItsAddressAndJumps := by
  refine fun s nnn => ⟨fun h => (exec_call nnn s).trans (if_pos h), fun h => ?_⟩
  have hexec := (exec_call nnn s).trans (if_neg h)
  exact ⟨_, hexec, rfl, addrOperand_toNat nnn, (exec_frame hexec).mono (by simp [Instr.writes])⟩

/-- Settles O31: the jump writes pc only, with a sum below 65536. -/
theorem jpV0AddsUnmasked : Obligations.JpV0AddsUnmasked :=
  fun s nnn => ⟨_, rfl, jumpV0Target_toNat nnn (s.readV 0), (FrameBut.refl [] s).setPc _⟩

/-- Settles O32: the entry on top is the one the call pushed. -/
theorem callThenReturnResumesAfterCall : Obligations.CallThenReturnResumesAfterCall := by
  intro s t u nnn h hu
  rw [exec_call] at h
  split at h
  next => cases h
  next => cases h; exact ⟨_, exec_ret_of_stack_append hu, rfl, rfl⟩

end Sys2Proof.Machine

/-! What the ALU instructions that write a flag do (42_alu.md R186 to R190), and obligations O37 to O41. -/

namespace Sys2Proof.Machine

/-! #### The two orders of writing (40_cycle_driver.md R124, D9) -/

theorem writesThenFlag_writeV_writeVF (s : State) (x : Reg) (v flag : Byte) :
    WritesThenFlag x v flag s ((s.writeV x v).writeVF flag).advance := by
  refine ⟨fun hx => ?value, ?flag, regsBut_writeV_writeV s x VF v flag, rfl, ?frame⟩
  case value => rw [State.advance_readV, State.readV_writeVF, if_neg hx, State.readV_writeV_same]
  case flag => rw [State.advance_readV, State.readV_writeVF, if_pos rfl]
  case frame => exact ((frameBut_writeV.trans frameBut_writeV).setPc _).mono (by simp)

theorem flagThenWrites_writeVF_writeV (s : State) (x : Reg) (v flag : Byte) :
    FlagThenWrites x v flag s ((s.writeVF flag).writeV x v).advance := by
  refine ⟨?value, fun hx => ?flag, ?others, rfl, ?frame⟩
  case value => rw [State.advance_readV, State.readV_writeV_same]
  case flag => rw [State.advance_readV, State.readV_writeV_ne _ v hx.symm, State.readV_writeVF, if_pos rfl]
  case others => exact (regsBut_writeV_writeV s VF x flag v).mono (by simp)
  case frame => exact ((frameBut_writeV.trans frameBut_writeV).setPc _).mono (by simp)

/-! #### Results and flags as numbers (42_alu.md R191) -/

theorem byte_add_eq (a b : Byte) : a + b = BitVec.ofNat 8 ((a.toNat + b.toNat) % 256) :=
  BitVec.eq_of_toNat_eq (by simp)

theorem byte_sub_eq (a b : Byte) : a - b = BitVec.ofNat 8 ((a.toNat + 256 - b.toNat) % 256) := by
  apply BitVec.eq_of_toNat_eq
  rw [BitVec.toNat_sub, BitVec.toNat_ofNat]
  omega

theorem byte_shiftRight_one_eq (a : Byte) : a >>> 1 = BitVec.ofNat 8 (a.toNat / 2) := by
  apply BitVec.eq_of_toNat_eq
  rw [BitVec.toNat_ushiftRight, Nat.shiftRight_one, BitVec.toNat_ofNat]
  omega

theorem byte_shiftLeft_one_eq (a : Byte) : a <<< 1 = BitVec.ofNat 8 (2 * a.toNat % 256) := by
  apply BitVec.eq_of_toNat_eq
  rw [BitVec.toNat_shiftLeft, Nat.shiftLeft_eq, BitVec.toNat_ofNat]
  omega

theorem carryFlag_eq (a b : Byte) : carryFlag a b = if 255 < a.toNat + b.toNat then 1 else 0 := by
  simp [carryFlag, flagByte]

theorem borrowFlag_eq (a b : Byte) : borrowFlag a b = if a.toNat < b.toNat then 1 else 0 := by
  simp [borrowFlag, flagByte]

theorem shrFlag_eq (a : Byte) : shrFlag a = BitVec.ofNat 8 (a.toNat % 2) := by
  apply BitVec.eq_of_toNat_eq
  rw [shrFlag, BitVec.toNat_and, BitVec.toNat_ofNat]
  simp
  omega

/-- The bit 0x80 keeps is the top one, set from 128 on. -/
theorem shlFlag_eq (a : Byte) : shlFlag a = if 128 ≤ a.toNat then 0x80 else 0 := by
  have hbit : a.getLsbD 7 = decide (128 ≤ a.toNat) :=
    (BitVec.msb_eq_getLsbD_last a).symm.trans (BitVec.msb_eq_decide a)
  rw [shlFlag, show (0x80 : Byte) = BitVec.twoPow 8 7 from rfl, BitVec.and_twoPow, hbit]
  simp

/-! #### The instructions -/

/-- Settles O37: the sum, then its carry, X = F and Y = F included. -/
theorem addRegSetsCarry : Obligations.AddRegSetsCarry := by
  intro s x y
  rw [← byte_add_eq, ← carryFlag_eq]
  exact ⟨_, rfl, writesThenFlag_writeV_writeVF s x _ _⟩

/-- Settles O38: the difference, then its borrow, X = F and Y = F included. -/
theorem subSetsBorrow : Obligations.SubSetsBorrow := by
  intro s x y
  rw [← byte_sub_eq, ← borrowFlag_eq]
  exact ⟨_, rfl, writesThenFlag_writeV_writeVF s x _ _⟩

/-- Settles O39: the reverse difference, then its borrow, X = F and Y = F included. -/
theorem subnSetsBorrow : Obligations.SubnSetsBorrow := by
  intro s x y
  rw [← byte_sub_eq, ← borrowFlag_eq]
  exact ⟨_, rfl, writesThenFlag_writeV_writeVF s x _ _⟩

/-- Settles O40: the bit shifted out, then half the value, X = F included. -/
theorem shrShiftsOutLowBit : Obligations.ShrShiftsOutLowBit := by
  intro s x
  rw [← byte_shiftRight_one_eq, ← shrFlag_eq]
  exact ⟨_, rfl, flagThenWrites_writeVF_writeV s x _ _⟩

/-- Settles O41: the bit shifted out where it stands, then twice the value, X = F included. -/
theorem shlKeepsHighBitUnnormalised : Obligations.ShlKeepsHighBitUnnormalised := by
  intro s x
  rw [← byte_shiftLeft_one_eq, ← shlFlag_eq]
  exact ⟨_, rfl, flagThenWrites_writeVF_writeV s x _ _⟩

end Sys2Proof.Machine

/-! What the instructions that store and load a block do (43_index_and_memory.md R213 to R215), and obligations O11 and O45 to
O48. -/

namespace Sys2Proof.Machine

/-! #### A stored block -/

theorem byteAt_load_inside (s : State) (a : Nat) (bs : List Byte) (j : Nat) (h : j < bs.length) :
    State.byteAt { s with M := Memory.load s.config.font s.M a bs } (a + j) = bs[j] := by
  rw [byteAt_load, dif_pos (by omega)]
  simp

theorem byteAt_load_outside (s : State) (a : Nat) (bs : List Byte) (c : Nat) (h : c < a ∨ a + bs.length ≤ c) :
    State.byteAt { s with M := Memory.load s.config.font s.M a bs } c = s.byteAt c := by
  rw [byteAt_load, dif_neg (by omega)]

theorem bcdDigits_toNat (v : Byte) (j : Nat) (h : j < (bcdDigits v).length) :
    (bcdDigits v)[j].toNat = [v.toNat / 100, v.toNat / 10 % 10, v.toNat % 10][j] := by
  have hv := v.isLt
  match j, h with
  | 0, _ => exact Nat.mod_eq_of_lt (by omega)
  | 1, _ => exact Nat.mod_eq_of_lt (by omega)
  | 2, _ => exact Nat.mod_eq_of_lt (by omega)

/-- Settles O45: the three digits are the block stored at I. -/
theorem ldBStoresDecimalDigits : Obligations.LdBStoresDecimalDigits := by
  refine fun s x => ⟨fun hfit hfont => ?stored, fun hout => ?range, fun hfont => ?font⟩
  case stored =>
    have hexec := (exec_ldB x s).trans ((if_neg (Nat.not_lt.mpr hfit)).trans (if_neg hfont))
    have hdigit (j : Nat) (h : j < (bcdDigits (s.readV x)).length) :=
      (congrArg BitVec.toNat (byteAt_load_inside s s.I.toNat _ j h)).trans (bcdDigits_toNat (s.readV x) j h)
    exact ⟨_, hexec, hdigit 0 (by simp [bcdDigits]), hdigit 1 (by simp [bcdDigits]), hdigit 2 (by simp [bcdDigits]),
      fun a ha => byteAt_load_outside s _ _ a ha, rfl, (exec_frame hexec).mono (by simp [Instr.writes])⟩
  case range => rw [exec_ldB, if_pos hout]
  case font => rw [exec_ldB, if_neg (by have := hfont.2; omega), if_pos hfont]

/-- Settles O46: the first registers are the block stored at I. -/
theorem ldMIStoresRegisters : Obligations.LdMIStoresRegisters := by
  refine fun s x => ⟨fun hfit hfont => ?stored, fun hout => ?range, fun hfont => ?font⟩
  case stored =>
    have hexec := (exec_ldMI x s).trans ((if_neg (Nat.not_lt.mpr hfit)).trans (if_neg hfont))
    refine ⟨_, hexec, fun k hk => ?registers, fun a ha => ?others, rfl, (exec_frame hexec).mono (by simp [Instr.writes])⟩
    case registers =>
      have hlt : k.val < (s.firstVs x).length := by
        rw [State.length_firstVs]; exact Nat.lt_succ_of_le hk
      exact (byteAt_load_inside s _ _ k.val hlt).trans (s.getElem_firstVs x k.val hlt)
    case others => exact byteAt_load_outside s _ _ a (by rw [State.length_firstVs]; omega)
  case range => rw [exec_ldMI, if_pos hout]
  case font => rw [exec_ldMI, if_neg (by have := hfont.2; omega), if_pos hfont]

/-- A completed FX55 was in range, put V[k] at I + k, and changed memory and pc alone. -/
theorem exec_ldMI_next {s t : State} {x : Reg} (h : exec (.ldMI x) s = .next t) :
    s.I.toNat + x.val ≤ 4095 ∧ (∀ k : Reg, k ≤ x → t.byteAt (s.I.toNat + k.val) = s.readV k) ∧
      FrameBut [.memory, .pc] s t := by
  obtain ⟨hok, hrange, hfont⟩ := ldMIStoresRegisters s x
  have hfit : ¬ 4095 < s.I.toNat + x.val := fun hout => by cases (hrange hout).symm.trans h
  have hfree : ¬ s.fontStoreBlocked := fun hb => by cases (hfont hb).symm.trans h
  obtain ⟨u, hu, hbytes, -, -, hframe⟩ := hok (Nat.not_lt.mp hfit) hfree
  cases hu.symm.trans h
  exact ⟨Nat.not_lt.mp hfit, hbytes, hframe⟩

/-- Settles O11: the stored bytes at I and I + 1 are the ones a fetch at I reads. -/
theorem storedWordIsFetchedNext : Obligations.StoredWordIsFetchedNext := by
  intro s t x hx h
  obtain ⟨hfit, hbytes, hframe⟩ := exec_ldMI_next h
  refine ⟨?_, hframe .opcode (by simp)⟩
  rw [fetch_of_le (by show s.I.toNat ≤ 4094; omega), State.wordAtPc]
  exact congrArg Except.ok (congrArg₂ wordOfBytes (hbytes 0 (Fin.zero_le x)) (hbytes 1 hx))

/-! #### A loaded block -/

/-- Settles O47: the block read from I fills the first registers. -/
theorem ldVILoadsRegisters : Obligations.LdVILoadsRegisters := by
  refine fun s x => ⟨fun hfit => ?loaded, fun hout => ?range⟩
  case loaded =>
    have hexec := (exec_ldVI x s).trans (if_neg (Nat.not_lt.mpr hfit))
    have hread := s.readV_writeVs 0 (s.bytesFrom s.I.toNat (x.val + 1)) (by simp)
    refine ⟨_, hexec, fun k hk => ?inside, fun k hk => ?outside, by simp, (exec_frame hexec).mono (by simp [Instr.writes])⟩
    case inside => rw [State.advance_readV, hread, dif_pos (by simp; omega)]; simp
    case outside => rw [State.advance_readV, hread, dif_neg (by simp; omega)]
  case range => rw [exec_ldVI, if_pos hout]

/-- Settles O48: the dump leaves I, so the load reads the bytes the dump stored. -/
theorem dumpThenLoadRestoresRegisters : Obligations.DumpThenLoadRestoresRegisters := by
  intro s t x V' h
  obtain ⟨hfit, hbytes, hframe⟩ := exec_ldMI_next h
  have hI : t.I = s.I := hframe .index (by simp)
  obtain ⟨u, hu, hregs, -, -, huframe⟩ := (ldVILoadsRegisters { t with V := V' } x).1 (by simpa [hI] using hfit)
  refine ⟨u, hu, fun k hk => (hregs k hk).trans ?_, (huframe .index (by simp)).trans hI⟩
  rw [← hbytes k hk, ← hI]
  rfl

end Sys2Proof.Machine

/-! What the instruction that draws a sprite does (44_display.md R241, R242), and obligations O50 and O51. -/

namespace Sys2Proof.Machine

theorem flagByte_eq_one_iff (c : Bool) : flagByte c = 1 ↔ c = true := by cases c <;> decide

theorem flagByte_eq_zero_iff (c : Bool) : flagByte c = 0 ↔ c = false := by cases c <;> decide

/-- The cells of the sprite whose rows DXYN loads are those its set bits land on. -/
theorem mem_spriteCells_bytesFrom (s : State) (x y n k : Nat) :
    k ∈ spriteCells x y 0 (s.bytesFrom s.I.toNat n) ↔ s.spriteLit x y n k := by
  simp [mem_spriteCells, State.spriteLit, State.spriteBit, spriteCell, fbCells]

/-- DXYN lights cell `k`: its sprite, drawn at (V[x], V[y]), has a set bit there. -/
abbrev State.Lights (s : State) (x y : Reg) (n : Fin 16) (k : Fin 2048) : Prop :=
  s.spriteLit (s.readV x).toNat (s.readV y).toNat n.val k.val

/-- The state DXYN leaves: the loaded rows drawn, pc two past the instruction. -/
def State.drawn (s : State) (x y : Reg) (n : Fin 16) : State :=
  (s.drawRows x y (s.bytesFrom s.I.toNat n.val)).advance

theorem exec_drw_of_fits {s : State} {n : Fin 16} (x y : Reg) (h : 0 < n.val → s.I.toNat + n.val - 1 ≤ 4095) :
    exec (.drw x y n) s = .next (s.drawn x y n) :=
  (exec_drw x y n s).trans (if_neg fun hout => Nat.not_le.mpr hout.2 (h hout.1))

section
variable (s : State) (x y : Reg) (n : Fin 16)

/-- What `drawSprite_spec` says of the loaded rows, of which there are at most 15. -/
theorem drawSprite_bytesFrom_spec (a b : Nat) :
    (∀ j, (drawSprite s.fb a b (s.bytesFrom s.I.toNat n.val)).1.cell j =
      if j ∈ spriteCells a b 0 (s.bytesFrom s.I.toNat n.val) then !s.fb.cell j else s.fb.cell j) ∧
    ((drawSprite s.fb a b (s.bytesFrom s.I.toNat n.val)).2 = true ↔
      ∃ k ∈ spriteCells a b 0 (s.bytesFrom s.I.toNat n.val), s.fb.cell k = true) :=
  drawSprite_spec s.fb a b _ (by rw [State.length_bytesFrom]; omega)

theorem fbRead_drawn_of_lights {k : Fin 2048} (h : s.Lights x y n k) : fbRead (s.drawn x y n) k = !fbRead s k :=
  ((drawSprite_bytesFrom_spec s n _ _).1 k.val).trans (if_pos ((mem_spriteCells_bytesFrom ..).mpr h))

theorem fbRead_drawn_of_not_lights {k : Fin 2048} (h : ¬ s.Lights x y n k) : fbRead (s.drawn x y n) k = fbRead s k :=
  ((drawSprite_bytesFrom_spec s n _ _).1 k.val).trans (if_neg (mt (mem_spriteCells_bytesFrom ..).mp h))

theorem readV_VF_drawn : (s.drawn x y n).readV VF =
    flagByte (drawSprite s.fb (s.readV x).toNat (s.readV y).toNat (s.bytesFrom s.I.toNat n.val)).2 :=
  State.readV_writeV_same _ VF _

/-- The collision: some lit cell was on. -/
theorem readV_VF_drawn_eq_one_iff :
    (s.drawn x y n).readV VF = 1 ↔ ∃ k : Fin 2048, s.Lights x y n k ∧ fbRead s k = true := by
  rw [readV_VF_drawn, flagByte_eq_one_iff, (drawSprite_bytesFrom_spec s n _ _).2]
  constructor
  · rintro ⟨k, hk, hon⟩
    have hlit := (mem_spriteCells_bytesFrom ..).mp hk
    have hlt : k < 2048 := by
      obtain ⟨r, -, c, -, -, rfl⟩ := hlit
      exact Nat.mod_lt _ (by decide)
    exact ⟨⟨k, hlt⟩, hlit, hon⟩
  · rintro ⟨k, hlit, hon⟩
    exact ⟨k.val, (mem_spriteCells_bytesFrom ..).mpr hlit, hon⟩

theorem readV_VF_drawn_eq_zero_iff :
    (s.drawn x y n).readV VF = 0 ↔ ∀ k : Fin 2048, s.Lights x y n k → fbRead s k = false := by
  have hflag : (s.drawn x y n).readV VF = 0 ↔ (s.drawn x y n).readV VF ≠ 1 := by
    rw [readV_VF_drawn, Ne, flagByte_eq_one_iff, flagByte_eq_zero_iff, Bool.not_eq_true]
  rw [hflag, Ne, readV_VF_drawn_eq_one_iff]
  simp

end

/-- Settles O50: the loaded rows toggle the lit cells, and the collision is the flag. -/
theorem drwTogglesSpriteCells : Obligations.DrwTogglesSpriteCells := by
  refine fun s x y n => ⟨fun hfit => ?drawn, fun h0 hout => (exec_drw x y n s).trans (if_pos ⟨h0, hout⟩)⟩
  have hexec := exec_drw_of_fits x y hfit
  exact ⟨_, hexec, fun k => ⟨fbRead_drawn_of_lights s x y n, fbRead_drawn_of_not_lights s x y n⟩,
    (readV_VF_drawn_eq_one_iff s x y n).mpr, (readV_VF_drawn_eq_zero_iff s x y n).mpr, exec_regsBut hexec, rfl,
    (exec_frame hexec).mono (by simp [Instr.writes])⟩

/-- Settles O51: the second draw lights the same cells, since the first left memory and I. -/
theorem drawTwiceRestoresFramebuffer : Obligations.DrawTwiceRestoresFramebuffer := by
  intro s t x y n h
  have hfit : 0 < n.val → s.I.toNat + n.val - 1 ≤ 4095 := fun h0 => Nat.not_lt.mp fun hout => by
    cases ((exec_drw x y n s).trans (if_pos ⟨h0, hout⟩)).symm.trans h
  obtain rfl : s.drawn x y n = t := by cases (exec_drw_of_fits x y hfit).symm.trans h; rfl
  have hlights : ∀ {k}, State.Lights { s.drawn x y n with V := s.V } x y n k ↔ s.Lights x y n k := Iff.rfl
  refine ⟨_, exec_drw_of_fits x y hfit, Framebuffer.ext_cell fun k hk => ?cells, ?flag⟩
  case cells =>
    by_cases hlit : s.Lights x y n ⟨k, hk⟩
    · have h1 := fbRead_drawn_of_lights s x y n hlit
      have h2 := fbRead_drawn_of_lights { s.drawn x y n with V := s.V } x y n (hlights.mpr hlit)
      exact h2.trans ((congrArg (!·) h1).trans (Bool.not_not _))
    · have h1 := fbRead_drawn_of_not_lights s x y n hlit
      have h2 := fbRead_drawn_of_not_lights { s.drawn x y n with V := s.V } x y n (mt hlights.mp hlit)
      exact h2.trans h1
  case flag =>
    rw [readV_VF_drawn_eq_one_iff]
    refine exists_congr fun k => and_congr_right fun hlit => ?_
    have h1 := fbRead_drawn_of_lights s x y n (hlights.mp hlit)
    exact iff_of_eq ((congrArg (· = true) h1).trans (Bool.not_eq_true' _))

end Sys2Proof.Machine

/-! What the instructions that read the cycle's inputs do (45_input_timers_random.md R260 to R264), and obligations O52, O53 and
O55. -/

namespace Sys2Proof.Machine

/-- Settles O52: the value written is the masked byte, and the byte is the head of the listed inputs. -/
theorem rndMasksRandomByte : Obligations.RndMasksRandomByte :=
  fun s x kk => ⟨⟨_, rfl, writesOnly_writeV_advance s x (s.rand &&& kk)⟩, fun inp rest h => by rw [State.rand, h]⟩

theorem State.key_of_inputs {s : State} {inp : CycleInput} {rest : List CycleInput} (h : s.inputs = inp :: rest) (k : Reg) :
    s.key k = inp.keypad[k.val] := by
  rw [State.key, State.keypad, h]
  rfl

theorem commit_skipOnKey_of_key {s : State} {vx : Byte} {k : Reg} (h : vx.toNat = k.val) (c : Bool → Bool) :
    commit (skipOnKey s vx c) = .next (s.skipIf (c (s.key k))) := by
  have hk : (⟨vx.toNat, by omega⟩ : Reg) = k := Fin.ext h
  rw [commit_skipOnKey, dif_neg (by omega), hk]

theorem commit_skipOnKey_of_gt {s : State} {vx : Byte} (h : 15 < vx.toNat) (c : Bool → Bool) :
    commit (skipOnKey s vx c) = .fault (.keyIndexOutOfRange vx) := by
  rw [commit_skipOnKey, dif_pos h]

/-- Settles O53: each instruction is a skip on its test of the key, with the same check of the index. -/
theorem keySkips : Obligations.KeySkips := by
  refine fun s x => ⟨fun k hk => ⟨?skp, ?sknp⟩, fun h => ?out, fun inp rest h => State.key_of_inputs h⟩
  case skp => exact ⟨_, commit_skipOnKey_of_key hk _, skipsIf_skipIf Iff.rfl⟩
  case sknp => exact ⟨_, commit_skipOnKey_of_key hk _, skipsIf_skipIf (iff_of_eq (Bool.not_eq_true' _))⟩
  case out => exact ⟨commit_skipOnKey_of_gt h _, commit_skipOnKey_of_gt h _⟩

theorem exec_ldK_of_lowestKey_none {s : State} (x : Reg) (h : s.lowestKey = none) : exec (.ldK x) s = .next s := by
  simp only [exec, execLdK, h]

theorem exec_ldK_of_lowestKey_some {s : State} (x : Reg) {k : Reg} (h : s.lowestKey = some k) :
    exec (.ldK x) s = .next (s.writeWaitKey x k).advance := by
  simp only [exec, execLdK, h]

/-- Settles O55: no key leaves the state, the least key writes as WAIT_KEY_VX says and advances. -/
theorem ldKWaitsForKey : Obligations.LdKWaitsForKey := by
  refine fun s x => ⟨fun h => ?waits, fun k hk hleast => ?ends⟩
  case waits => exact ⟨s, exec_ldK_of_lowestKey_none x (lowestKey_none h), .refl [] s⟩
  case ends =>
    have hexec := exec_ldK_of_lowestKey_some x (lowestKey_some hk hleast)
    refine ⟨_, hexec, by simp, fun hw => ?unchanged, fun hw => ?lowest, fun hw => ?draw, ?others, ?frame⟩
    case unchanged => rw [State.advance_readV, State.writeWaitKey, hw]
    case lowest =>
      rw [State.advance_readV, State.writeWaitKey, hw, State.readV_writeV_same, BitVec.toNat_ofNat]
      omega
    case draw => rw [State.advance_readV, State.writeWaitKey, hw, State.readV_writeV_same]
    case others => exact (regsBut_writeWaitKey s x k).mono (by split <;> simp)
    case frame => exact (exec_frame hexec).mono (by simp [Instr.writes])

end Sys2Proof.Machine

/-! Whole cycles of the instructions that touch a timer or wait (40_cycle_driver.md R126), and obligations O57 and O58. -/

namespace Sys2Proof.Machine

/-- Settles O57: the execute step's timers are the ones the cycle's end ticks. -/
theorem timerCyclesDecrementAfterExecute : Obligations.TimerCyclesDecrementAfterExecute := by
  refine fun s x => ⟨?delay, ?sound, ?read⟩ <;> rintro ⟨op, hf, hd⟩ <;> rw [step_of_fetch hf hd]
  case delay => exact ⟨_, rfl, timerTick_toNat _, timerTick_toNat _⟩
  case sound => exact ⟨_, rfl, timerTick_toNat _, timerTick_toNat _⟩
  case read => exact ⟨_, rfl, State.readV_writeV_same _ x _, timerTick_toNat _⟩

theorem frameBut_latch (s : State) (op : Word) : FrameBut [.opcode] s (s.latch op) := by
  intro p hp
  cases p <;> simp [Part.same] at hp ⊢

/-- Settles O58: the execute step leaves the latched state, and the cycle's end ticks it. -/
theorem waitingCycleStillTicks : Obligations.WaitingCycleStillTicks := by
  rintro s x ⟨op, hf, hd⟩ hkeys
  have hwait : exec (.ldK x) (s.latch op) = .next (s.latch op) := exec_ldK_of_lowestKey_none x (lowestKey_none hkeys)
  have hframe : FrameBut [.delayTimer, .soundTimer, .trace, .opcode, .inputs, .draws] s (s.latch op).endCycle :=
    ((frameBut_latch s op).mono (by simp)).trans ((endOfCycleFrame (s.latch op)).1.mono (by simp))
  exact ⟨_, (step_of_fetch hf hd).trans (congrArg finishCycle hwait), timerTick_toNat _, timerTick_toNat _, (fetch_ok hf).2,
    hframe⟩

end Sys2Proof.Machine
